-- ==== Sys2Proof/Config.lean ====
section
/-! DEFINITION. The parameters of 00_scope.md R9, the quantities derived from them, and the free values of the
cells that nothing has written since reset (10_state.md R41). -/

namespace Sys2Proof

/-- `SYNC_MODE` of 00_scope.md R9: whether an index is seen by the other side at once or after a SYNC step. -/
inductive SyncMode where
  | exact
  | lagged
  deriving DecidableEq, Repr

/-- The parameters of 00_scope.md R9. `OVERFLOW_POLICY` and `RUNNING_STATUS` are fixed there to `REJECT_NEW` and
`false`, so they are no fields. DESIGN CHOICE (log 1): a machine's parameters stand in a field of its State that no
step writes. -/
structure Config where
  /-- log2 of the FIFO depth, `K >= 0` -/
  k : Nat
  /-- payload capacity of the framer in bytes, `P >= 2` -/
  p : Nat
  /-- width of the overflow counter, `DROP_W >= 1` -/
  dropW : Nat
  syncMode : SyncMode
  deriving DecidableEq, Repr

/-- `C = 2^K`, the FIFO capacity in bytes (00_scope.md R9). -/
def Config.cap (c : Config) : Nat := 2 ^ c.k

/-- `M = 2*C`, the modulus of every index (00_scope.md R12). -/
def Config.modulus (c : Config) : Nat := 2 * c.cap

/-- The default parameters of 00_scope.md R9. -/
def Config.default : Config :=
  { k := 6, p := 32, dropW := 16, syncMode := .exact }

/-- What a cell of `mem` holds that no `ENQ` has written since the latest reset: unspecified (10_state.md R41;
93_implementation_defined.md U5), so a free value. Arguments: how many resets there have been, and the slot (log 4). -/
opaque Config.freeMemByte : Nat → Nat → BitVec 8

/-- What a cell of `pay` holds that no data byte has written since the latest reset (10_state.md R41; log 4). -/
opaque Config.freePayByte : Nat → Nat → BitVec 8

end Sys2Proof
end

