-- ==== Sys2Proof/Word.lean ====
section
/-! DEFINITION. The word types: the wire unit is one byte (30_encoding.md R90). -/

namespace Sys2Proof

/-- The unit of the wire format and of both arrays (20_memory.md R63; 30_encoding.md R90). -/
abbrev Byte := BitVec 8

/-- A channel, 0 to 15 (30_encoding.md R96). -/
abbrev Chan := BitVec 4

/-- A payload value, 0 to 127 (30_encoding.md R92, R97). -/
abbrev Payload := BitVec 7

end Sys2Proof
end

