-- ==== Sys2Proof/Syntax.lean ====
section
/-! DEFINITION. The operations of the machine: one constructor of `Instr` per row of spec/opcode_table.json, the
agents that perform them (00_scope.md R8), the message classes (10_state.md R29), the message macros (30_encoding.md
R107) and the input ports (30_encoding.md R102). -/

namespace Sys2Proof

/-- The four agents of 00_scope.md R8: exactly one producer and one consumer (93_implementation_defined.md U3). -/
inductive Agent where
  | producer
  | consumer
  | sync
  | host
  deriving DecidableEq, Repr

/-- The closed set of message classes (10_state.md R29). -/
inductive MsgClass where
  | noteOff
  | noteOn
  | polyPressure
  | controlChange
  | programChange
  | channelPressure
  | pitchBend
  | extended
  | unset
  deriving DecidableEq, Repr

/-- One constructor per row of spec/opcode_table.json: the nine byte rows (30_encoding.md R105), then the ten boundary
operations (30_encoding.md R102). `syncW` and `syncR` carry the index value their step chooses (40_fifo_ops.md R124,
R125: a free input of the step); `configureLine` carries the line speed, which nothing interprets (44 R204). -/
inductive Instr where
  | stNoteOff (c : Chan)
  | stNoteOn (c : Chan)
  | stPolyPressure (c : Chan)
  | stControlChange (c : Chan)
  | stProgramChange (c : Chan)
  | stChannelPressure (c : Chan)
  | stPitchBend (c : Chan)
  | stExtended (c : Chan)
  | data (d : Payload)
  | enq (b : Byte)
  | deq
  | len
  | empty
  | syncW (v : Nat)
  | syncR (v : Nat)
  | decode (b : Byte)
  | drain
  | reset
  | configureLine (r : Nat)
  deriving DecidableEq, Repr

/-- The agent of each operation (30_encoding.md R102; 44_drain_and_boundary.md R206). A byte row is what the consumer's
`DECODE` does with a byte of that pattern. -/
def Instr.agent : Instr → Agent
  | .stNoteOff _ => .consumer
  | .stNoteOn _ => .consumer
  | .stPolyPressure _ => .consumer
  | .stControlChange _ => .consumer
  | .stProgramChange _ => .consumer
  | .stChannelPressure _ => .consumer
  | .stPitchBend _ => .consumer
  | .stExtended _ => .consumer
  | .data _ => .consumer
  | .enq _ => .producer
  | .deq => .consumer
  | .len => .consumer
  | .empty => .consumer
  | .syncW _ => .sync
  | .syncR _ => .sync
  | .decode _ => .consumer
  | .drain => .consumer
  | .reset => .host
  | .configureLine _ => .host

/-- Each constructor's mnemonic in spec/opcode_table.json. -/
def Instr.mnemonic : Instr → String
  | .stNoteOff _ => "ST_NOTE_OFF"
  | .stNoteOn _ => "ST_NOTE_ON"
  | .stPolyPressure _ => "ST_POLY_PRESSURE"
  | .stControlChange _ => "ST_CONTROL_CHANGE"
  | .stProgramChange _ => "ST_PROGRAM_CHANGE"
  | .stChannelPressure _ => "ST_CHANNEL_PRESSURE"
  | .stPitchBend _ => "ST_PITCH_BEND"
  | .stExtended _ => "ST_EXTENDED"
  | .data _ => "DATA"
  | .enq _ => "ENQ"
  | .deq => "DEQ"
  | .len => "LEN"
  | .empty => "EMPTY"
  | .syncW _ => "SYNC_W"
  | .syncR _ => "SYNC_R"
  | .decode _ => "DECODE"
  | .drain => "DRAIN"
  | .reset => "RESET"
  | .configureLine _ => "CONFIGURE_LINE"

/-- The message macros of 30_encoding.md R107. `bend` is signed, -8192 to 8191. -/
inductive Message where
  | noteOff (ch : Chan) (note vel : Payload)
  | noteOn (ch : Chan) (note vel : Payload)
  | polyPressure (ch : Chan) (note val : Payload)
  | controlChange (ch : Chan) (ctl val : Payload)
  | programChange (ch : Chan) (prog : Payload)
  | channelPressure (ch : Chan) (val : Payload)
  | pitchBend (ch : Chan) (bend : Int)
  | extended (ch : Chan) (ds : List Payload)
  deriving DecidableEq, Repr

/-- The input ports of 30_encoding.md R102: an operation is requested by raising its strobe for one step. `LEN`,
`EMPTY`, `SYNC_W`, `SYNC_R` and `CONFIGURE_LINE` have no request port. -/
structure PortIn where
  enqValid : Bool := false
  enqData : Byte := 0
  deqReq : Bool := false
  decValid : Bool := false
  decByte : Byte := 0
  drainReq : Bool := false
  rst : Bool := false
  deriving DecidableEq, Repr

end Sys2Proof
end

