-- ==== Sys2Proof/WellFormed.lean ====
section
/-! DEFINITION. When parameters, an operation and a message macro are well formed. -/

namespace Sys2Proof

/-- The constraints of 00_scope.md R9: `P >= 2` (R10) and `DROP_W >= 1`. `K` may be any natural number. -/
def Config.legal (c : Config) : Bool :=
  decide (2 ≤ c.p) && decide (1 ≤ c.dropW)

/-- An operation is well formed when its operands are in the ranges the spec gives them. Only a SYNC step's target can
be out of range: an index is a value in `0 .. M-1` (00_scope.md R12). Bytes, channels and payload values are held in
their own widths, and the line speed has no range (91_not_in_source.md N13). -/
def Instr.wellFormed (cfg : Config) : Instr → Bool
  | .stNoteOff _ => true
  | .stNoteOn _ => true
  | .stPolyPressure _ => true
  | .stControlChange _ => true
  | .stProgramChange _ => true
  | .stChannelPressure _ => true
  | .stPitchBend _ => true
  | .stExtended _ => true
  | .data _ => true
  | .enq _ => true
  | .deq => true
  | .len => true
  | .empty => true
  | .syncW v => decide (v < cfg.modulus)
  | .syncR v => decide (v < cfg.modulus)
  | .decode _ => true
  | .drain => true
  | .reset => true
  | .configureLine _ => true

/-- A macro with an operand out of range is not written (30_encoding.md R107). -/
def Message.wellFormed : Message → Bool
  | .noteOff _ _ _ => true
  | .noteOn _ _ _ => true
  | .polyPressure _ _ _ => true
  | .controlChange _ _ _ => true
  | .programChange _ _ => true
  | .channelPressure _ _ => true
  | .pitchBend _ bend => decide (-8192 ≤ bend) && decide (bend ≤ 8191)
  | .extended _ _ => true

end Sys2Proof
end

