-- ==== Sys2Proof/Decode.lean ====
section
/-! DEFINITION. Decoding: the byte map (30_encoding.md R90 to R98, R105), the byte stream, the input strobes (30 R102),
and after them the encoders, with the message macros (30 R107). -/

namespace Sys2Proof

/-! ### Fields of a byte (30_encoding.md R11, R91, R92) -/

/-- `b[7]`: 1 marks a status byte (30_encoding.md R90). -/
def isStatus (b : Byte) : Bool := b.getLsbD 7

/-- `k = b[6:4]`, the class index of a status byte, equal to `(b >> 4) - 8` (30_encoding.md R91, R93). -/
def classIndex (b : Byte) : BitVec 3 := b.extractLsb' 4 3

/-- `c = b & 0x0F` (30_encoding.md R96). -/
def channelOf (b : Byte) : Chan := b.extractLsb' 0 4

/-- `d = b[6:0]` (30_encoding.md R92). -/
def payloadOf (b : Byte) : Payload := b.extractLsb' 0 7

/-- The class of a class index: the source's list order (30_encoding.md R93). -/
def classOfIndex (k : BitVec 3) : MsgClass :=
  match k.toNat with
  | 0 => .noteOff
  | 1 => .noteOn
  | 2 => .polyPressure
  | 3 => .controlChange
  | 4 => .programChange
  | 5 => .channelPressure
  | 6 => .pitchBend
  | _ => .extended

/-! ### The byte map -/

/-- The status row of a class index and channel (30_encoding.md R105). -/
def statusRow (k : BitVec 3) (c : Chan) : Instr :=
  match k.toNat with
  | 0 => .stNoteOff c
  | 1 => .stNoteOn c
  | 2 => .stPolyPressure c
  | 3 => .stControlChange c
  | 4 => .stProgramChange c
  | 5 => .stChannelPressure c
  | 6 => .stPitchBend c
  | _ => .stExtended c

/-- The row a byte selects: every one of the 256 values is decoded, none is illegal (30_encoding.md R98). -/
def decodeByte (b : Byte) : Instr :=
  if isStatus b then statusRow (classIndex b) (channelOf b) else .data (payloadOf b)

/-- One row of the byte map of 30_encoding.md R105: a byte selects it when `b & mask == pattern`. -/
structure ByteRow where
  mnemonic : String
  pattern : Byte
  mask : Byte
  deriving DecidableEq, Repr

/-- The nine rows, as 30_encoding.md R105 and spec/opcode_table.json print them. -/
def byteMap : List ByteRow :=
  [⟨"ST_NOTE_OFF", 0x80, 0xF0⟩, ⟨"ST_NOTE_ON", 0x90, 0xF0⟩, ⟨"ST_POLY_PRESSURE", 0xA0, 0xF0⟩,
   ⟨"ST_CONTROL_CHANGE", 0xB0, 0xF0⟩, ⟨"ST_PROGRAM_CHANGE", 0xC0, 0xF0⟩, ⟨"ST_CHANNEL_PRESSURE", 0xD0, 0xF0⟩,
   ⟨"ST_PITCH_BEND", 0xE0, 0xF0⟩, ⟨"ST_EXTENDED", 0xF0, 0xF0⟩, ⟨"DATA", 0x00, 0x80⟩]

/-- `b & mask == match` (30_encoding.md R105). -/
def ByteRow.selects (r : ByteRow) (b : Byte) : Bool := b &&& r.mask == r.pattern

/-! ### The byte stream -/

/-- Why a byte stream gives no operation. -/
inductive DecodeError where
  /-- there is no byte left to decode -/
  | noByte
  deriving DecidableEq, Repr

/-- One operation from the front of a byte stream, with the rest of the stream (30_encoding.md R90, R95). -/
def decode : List Byte → Except DecodeError (Instr × List Byte)
  | [] => .error .noByte
  | b :: bs => .ok (decodeByte b, bs)

/-- The operation of a word of spec/opcode_table.json. Only the byte rows have words, of 8 bits; the boundary operations
have ports (30_encoding.md R102) and no bits in the table, so no word of another size is one (log 20). -/
def decodeTableWord (nbits w : Nat) : Option Instr :=
  if nbits = 8 ∧ w < 256 then some (decodeByte (BitVec.ofNat 8 w)) else none

/-! ### The input strobes (30_encoding.md R102) -/

/-- Why a combination of strobes gives no step. -/
inductive PortError where
  /-- `rst` raised together with another request (70_reset_and_hazards.md R251; 93_implementation_defined.md U8) -/
  | resetNotAlone
  /-- two requests of the one consumer in one step (70_reset_and_hazards.md R256) -/
  | twoConsumerRequests
  deriving DecidableEq, Repr

/-- The consumer's requests among the strobes. -/
def PortIn.consumerRequests (p : PortIn) : List Instr :=
  (if p.deqReq then [.deq] else []) ++ (if p.decValid then [.decode p.decByte] else []) ++
    (if p.drainReq then [.drain] else [])

/-- The producer's request among the strobes. -/
def PortIn.producerRequests (p : PortIn) : List Instr :=
  if p.enqValid then [.enq p.enqData] else []

/-- The operations the strobes of one step request, in the order in which they are performed. A step is one operation of
one agent (00_scope.md R7, R14), so when the producer and the consumer both raise a strobe the order is the
environment's, given by `producerFirst` (log 12). -/
def decodePorts (p : PortIn) (producerFirst : Bool) : Except PortError (List Instr) :=
  if p.rst then
    if p.producerRequests = [] ∧ p.consumerRequests = [] then .ok [.reset] else .error .resetNotAlone
  else if 1 < p.consumerRequests.length then .error .twoConsumerRequests
  else if producerFirst then .ok (p.producerRequests ++ p.consumerRequests)
  else .ok (p.consumerRequests ++ p.producerRequests)

/-! ### Encoders -/

/-- Format S: `1kkkcccc` (30_encoding.md R91). -/
def statusByte (k : BitVec 3) (c : Chan) : Byte := (1#1 ++ k) ++ c

/-- Format D: `0ddddddd` (30_encoding.md R92). -/
def dataByte (d : Payload) : Byte := 0#1 ++ d

/-- The byte of a byte row; a boundary operation has none. -/
def encodeByte : Instr → Option Byte
  | .stNoteOff c => some (statusByte 0 c)
  | .stNoteOn c => some (statusByte 1 c)
  | .stPolyPressure c => some (statusByte 2 c)
  | .stControlChange c => some (statusByte 3 c)
  | .stProgramChange c => some (statusByte 4 c)
  | .stChannelPressure c => some (statusByte 5 c)
  | .stPitchBend c => some (statusByte 6 c)
  | .stExtended c => some (statusByte 7 c)
  | .data d => some (dataByte d)
  | .enq _ => none
  | .deq => none
  | .len => none
  | .empty => none
  | .syncW _ => none
  | .syncR _ => none
  | .decode _ => none
  | .drain => none
  | .reset => none
  | .configureLine _ => none

/-- The words (bytes) of an operation that has an encoding in the byte stream. -/
def encode (i : Instr) : Option (List Byte) := (encodeByte i).map fun b => [b]

/-- The strobes that request a boundary operation; an operation without a request port has none (30_encoding.md R102).
A byte row is requested through `dec_valid` with its byte on `dec_byte`. -/
def encodePorts : Instr → Option PortIn
  | .stNoteOff _ => none
  | .stNoteOn _ => none
  | .stPolyPressure _ => none
  | .stControlChange _ => none
  | .stProgramChange _ => none
  | .stChannelPressure _ => none
  | .stPitchBend _ => none
  | .stExtended _ => none
  | .data _ => none
  | .enq b => some { enqValid := true, enqData := b }
  | .deq => some { deqReq := true }
  | .len => none
  | .empty => none
  | .syncW _ => none
  | .syncR _ => none
  | .decode b => some { decValid := true, decByte := b }
  | .drain => some { drainReq := true }
  | .reset => some { rst := true }
  | .configureLine _ => none

/-- `u = bend + 8192` (30_encoding.md R107). -/
def bendWord (bend : Int) : Nat := (bend + 8192).toNat

/-- The bytes of a message macro (30_encoding.md R107). -/
def Message.bytes : Message → List Byte
  | .noteOff ch note vel => [statusByte 0 ch, dataByte note, dataByte vel]
  | .noteOn ch note vel => [statusByte 1 ch, dataByte note, dataByte vel]
  | .polyPressure ch note val => [statusByte 2 ch, dataByte note, dataByte val]
  | .controlChange ch ctl val => [statusByte 3 ch, dataByte ctl, dataByte val]
  | .programChange ch prog => [statusByte 4 ch, dataByte prog]
  | .channelPressure ch val => [statusByte 5 ch, dataByte val]
  | .pitchBend ch bend =>
      [statusByte 6 ch, dataByte (BitVec.ofNat 7 (bendWord bend)), dataByte (BitVec.ofNat 7 (bendWord bend / 128))]
  | .extended ch ds => statusByte 7 ch :: ds.map dataByte

end Sys2Proof
end

