-- ==== Sys2Proof/Machine/State.lean ====
section
/-! DEFINITION. The state of the machine: the eleven elements of 10_state.md R20, the event record (10_state.md R44),
the drain pass in progress (44_drain_and_boundary.md R200), and the model's own fields (parameters, the environment's
turns, the index of the free cell contents). -/

namespace Sys2Proof.Machine

/-- An array of bytes as the cells written since reset, addresses strictly rising. -/
abbrev Memory := List Host.Cell

/-- What a cell that is not listed reads as: no value, since its contents are unspecified (10_state.md R41; log 4). -/
def Memory.unlisted : Option Byte := none

/-- The canonical form: addresses strictly rising. (No entry can equal what an unlisted address reads as, which is no
byte at all.) -/
abbrev Memory.wf (m : Memory) : Prop := m.Pairwise fun x y => x.1 < y.1

/-- One invocation of a handler (43_dispatch.md R180). Channels, notes and the like are 4-bit and 7-bit values (30
R104); `bytes` are the cells of the payload buffer, in arrival order. -/
inductive Event where
  | noteOff (ch : Chan) (note : Payload)
  | noteOn (ch : Chan) (note vel : Payload)
  | controlChange (ch : Chan) (ctl val : Payload)
  | programChange (ch : Chan) (prog : Payload)
  | pitchBend (ch : Chan) (s : Int)
  | sysEx (n : Nat) (bytes : List Byte)
  deriving DecidableEq, Repr

/-- Where the consumer stands in a `DRAIN` pass, a sequence of separate `DEQ` and `DECODE` steps (44 R200; log 7). -/
inductive Pass where
  /-- no pass in progress -/
  | idle
  /-- the pass's next step is a `DEQ` -/
  | atDeq
  /-- the pass has dequeued `b`; its next step is `DECODE b` -/
  | atDecode (b : Byte)
  deriving DecidableEq, Repr

/-- What a step returns to the agent that called it (30_encoding.md R102). -/
inductive Ret where
  | none
  | enqOk
  | enqFull
  | deqByte (b : Byte)
  | deqEmpty
  | len (n : Nat)
  | isEmpty (e : Bool)
  /-- a drain pass has dequeued `b` for its own next step; nothing is returned yet, and no port shows it (log 23) -/
  | drainByte (b : Byte)
  /-- a drain pass has ended: `drain_done` -/
  | drainDone
  deriving DecidableEq, Repr

/-- What one step presents to the outside: its result, and the event on the event port, if any (30 R104; log 15). -/
structure Output where
  ret : Ret
  evt : Option Event
  deriving DecidableEq, Repr

/-- One turn of the environment: which agent steps next, and with what operand (10_state.md R43; log 2). -/
inductive Turn where
  /-- the consumer hands the framer this byte directly (44_drain_and_boundary.md R205) -/
  | byte (b : Byte)
  /-- agent `a` performs operation `i` -/
  | call (a : Agent) (i : Instr)
  /-- the receive interrupt calls `onByteReceived` (44_drain_and_boundary.md R202) -/
  | onByteReceived (b : Byte)
  /-- the control loop calls `drainAndDispatch` (44_drain_and_boundary.md R203) -/
  | drainAndDispatch
  /-- these strobes are raised; where the producer and the consumer both raise one, `producerFirst` says whose operation
  is performed first (30_encoding.md R102; log 12) -/
  | pins (p : PortIn) (producerFirst : Bool)
  /-- the consumer takes the next step of its drain pass (44_drain_and_boundary.md R200) -/
  | pass
  deriving DecidableEq, Repr

/-- The state of the machine. -/
structure State where
  /-- the parameters (00_scope.md R9), which no step writes (the model's own field, log 1) -/
  cfg : Config
  /-- FIFO storage, `C` cells (10_state.md R21) -/
  mem : Memory
  /-- `wr_idx` (10_state.md R22) -/
  wrIdx : Nat
  /-- `rd_idx` (10_state.md R23) -/
  rdIdx : Nat
  /-- `wr_view`, the consumer side's copy of `wr_idx` (10_state.md R25) -/
  wrView : Nat
  /-- `rd_view`, the producer side's copy of `rd_idx` (10_state.md R25) -/
  rdView : Nat
  /-- `drop_count` (10_state.md R27) -/
  dropCount : Nat
  /-- the class of the most recent status byte, or Unset (10_state.md R29) -/
  cur : MsgClass
  /-- the channel of the most recent status byte (10_state.md R30) -/
  chan : Chan
  /-- payload bytes still required, or room left for Extended (10_state.md R31) -/
  rem : Nat
  /-- the payload buffer, `P` cells (10_state.md R32) -/
  pay : Memory
  /-- next position in `pay` to fill (10_state.md R33) -/
  widx : Nat
  /-- the consumer's drain pass (44_drain_and_boundary.md R200; log 7) -/
  pass : Pass
  /-- the events emitted so far, oldest first (10_state.md R44) -/
  events : List Event
  /-- what the latest step presents (log 15) -/
  out : Output
  /-- the environment's turns still to come (the model's own field, log 2) -/
  turns : List Turn
  /-- how many resets there have been: index of the free cell contents (the model's own field, log 5) -/
  epoch : Nat
  deriving DecidableEq, Repr

/-- Why the machine stops with a fault. The hardware never faults (60_exceptions.md R220): both reasons stand for
pseudocode that 10_state.md R34 shows no reachable state runs (log 13). Safe: they only stop the model. -/
inductive Fault where
  /-- raised by a data byte that would be stored beyond `pay[P-1]`, and by a finalize that would read beyond it: an
  access to a cell that does not exist (20_memory.md R62). Safe. -/
  | payloadOverrun
  /-- raised by a data byte accepted while `cur` is Unset: `DISPATCH` is never called with it (43_dispatch.md R180).
  Safe. -/
  | noMessageClass
  deriving DecidableEq, Repr

/-- Why an operation is given no meaning. Every reason is safe: it only stops the model. -/
inductive Refusal where
  /-- raised by an arm of `exec` that has no meaning yet. Safe. -/
  | notModelled (mnemonic : String)
  /-- raised by `step` for an operation called by an agent it does not belong to (93_implementation_defined.md U3;
  60_exceptions.md R234; log 9). Safe. -/
  | wrongContext (a : Agent)
  /-- raised by `step` for a second consumer activity during a drain pass (70_reset_and_hazards.md R256; log 9). Safe. -/
  | consumerBusy
  /-- raised by `DRAIN` while a pass is in progress: `DRAIN` is not re-entrant (70_reset_and_hazards.md R256; log 9).
  Safe. -/
  | drainNotReentrant
  /-- raised by `step` for `rst` together with another strobe (93_implementation_defined.md U8; log 12). Safe. -/
  | resetNotAlone
  /-- raised by `step` for two strobes of the one consumer at once (70_reset_and_hazards.md R256; log 12). Safe. -/
  | twoConsumerRequests
  /-- raised by `SYNC_W` and `SYNC_R` in `SYNC_MODE = EXACT`, where the steps do not exist (40_fifo_ops.md R124, R125,
  R126; log 11). Safe. -/
  | noSyncInExactMode
  /-- raised by `SYNC_W` and `SYNC_R` for a target that is not from the view forward up to the index (40_fifo_ops.md
  R124, R125; log 11). Safe. -/
  | syncTargetIllegal
  deriving DecidableEq, Repr

/-- The reset state of a machine with these parameters (10_state.md R40, R41, R42). -/
def State.resetWith (c : Config) : State where
  cfg := c
  mem := []
  wrIdx := 0
  rdIdx := 0
  wrView := 0
  rdView := 0
  dropCount := 0
  cur := .unset
  chan := 0
  rem := 0
  pay := []
  widx := 0
  pass := .idle
  events := []
  out := { ret := .none, evt := none }
  turns := []
  epoch := 0

/-- The machine right after reset, with the default parameters of 00_scope.md R9. -/
def State.reset : State := State.resetWith Config.default

end Sys2Proof.Machine
end

