-- ==== Sys2Proof/Machine/Ops.lean ====
section
/-! DEFINITION. The named operations over the two arrays, the indices and the counters, and the end of a step. The
hardware takes no exceptions and returns from none (60_exceptions.md R220), so there is no such operation here. -/

namespace Sys2Proof.Machine

/-! ### Byte arrays -/

/-- Read one cell: its byte, or what an unlisted cell reads as. -/
def Memory.read : Memory → Nat → Option Byte
  | [], _ => Memory.unlisted
  | (a, b) :: m, x => if x = a then some b else Memory.read m x

/-- Write one cell, keeping the addresses strictly rising. -/
def Memory.write : Memory → Nat → Byte → Memory
  | [], x, v => [(x, v)]
  | (a, b) :: m, x, v =>
    if x < a then (x, v) :: (a, b) :: m
    else if x = a then (x, v) :: m
    else (a, b) :: Memory.write m x v

/-- `mem[i]`: the byte stored there, or the free value of a cell not written since reset (10_state.md R41). -/
def memByte (s : State) (i : Nat) : Byte := (s.mem.read i).getD (Config.freeMemByte s.epoch i)

/-- `pay[i]`: the byte stored there, or the free value of a cell not written since reset (10_state.md R41). -/
def payByte (s : State) (i : Nat) : Byte := (s.pay.read i).getD (Config.freePayByte s.epoch i)

/-- `pay[0 .. n-1]`. -/
def payBytes (s : State) (n : Nat) : List Byte := (List.range n).map (payByte s)

/-! ### Index arithmetic (00_scope.md R12) -/

/-- `inc(i) = (i + 1) mod M`. -/
def inc (c : Config) (i : Nat) : Nat := (i + 1) % c.modulus

/-- `dist(a, b) = (b - a) mod M`, the non-negative remainder (the name `dist` is taken by the library). -/
def idxDist (c : Config) (a b : Nat) : Nat := (b + (c.modulus - a % c.modulus)) % c.modulus

/-- `slot(i) = i mod C`. -/
def slot (c : Config) (i : Nat) : Nat := i % c.cap

/-- `sat_inc_N(x)` (00_scope.md R13). -/
def satInc (n x : Nat) : Nat := if x < 2 ^ n - 1 then x + 1 else x

/-! ### Named updates of the state -/

/-- Store a byte at the write position and advance the index, and in EXACT mode the view with it (40_fifo_ops.md R120,
R126). -/
def State.pushByte (s : State) (b : Byte) : State :=
  { s with
    mem := s.mem.write (slot s.cfg s.wrIdx) b
    wrIdx := inc s.cfg s.wrIdx
    wrView := if s.cfg.syncMode = .exact then inc s.cfg s.wrIdx else s.wrView }

/-- Count a rejected byte (10_state.md R27; 60_exceptions.md R222). -/
def State.countDrop (s : State) : State := { s with dropCount := satInc s.cfg.dropW s.dropCount }

/-- Advance the read index, and in EXACT mode the view with it (40_fifo_ops.md R121, R126). -/
def State.popByte (s : State) : State :=
  { s with
    rdIdx := inc s.cfg s.rdIdx
    rdView := if s.cfg.syncMode = .exact then inc s.cfg s.rdIdx else s.rdView }

/-- CLASSIFY: the four writes of every status byte (41_framer_status.md R141). -/
def State.classify (s : State) (k : MsgClass) (c : Chan) (need : Nat) : State :=
  { s with cur := k, chan := c, rem := need, widx := 0 }

/-- Store an accepted data byte (42_framer_data.md R160). -/
def State.acceptData (s : State) (b : Byte) : State :=
  { s with pay := s.pay.write s.widx b, widx := s.widx + 1, rem := s.rem - 1 }

/-- Move the consumer in its drain pass (44_drain_and_boundary.md R200). -/
def State.setPass (s : State) (p : Pass) : State := { s with pass := p }

/-- The end of every step: present the result and the event, and append the event to the record (10_state.md R44). -/
def State.finish (s : State) (r : Ret) (e : Option Event) : State :=
  { s with out := { ret := r, evt := e }, events := s.events ++ e.toList }

end Sys2Proof.Machine
end

