-- ==== Sys2Proof/Machine/Operands.lean ====
section
/-! DEFINITION. Operands of a message: the required payload lengths, and the values its payload bytes stand for. -/

namespace Sys2Proof.Machine

/-- `REQ = [2, 2, 2, 2, 1, 1, 2, P]` (30_encoding.md R94). Unset requires nothing: no message is in progress (10_state.md
R34 item 3). -/
def required (c : Config) : MsgClass → Nat
  | .noteOff => 2
  | .noteOn => 2
  | .polyPressure => 2
  | .controlChange => 2
  | .programChange => 1
  | .channelPressure => 1
  | .pitchBend => 2
  | .extended => c.p
  | .unset => 0

/-- The encoding of `cur` (10_state.md R29, the spec's choice D7; log 22). -/
def classCode : MsgClass → BitVec 4
  | .noteOff => 0
  | .noteOn => 1
  | .polyPressure => 2
  | .controlChange => 3
  | .programChange => 4
  | .channelPressure => 5
  | .pitchBend => 6
  | .extended => 7
  | .unset => 8

/-- `LW`, the width of `rem` and `widx`: the least `n` with `2^n > P` (00_scope.md R9). -/
def lengthWidth (c : Config) : Nat := Nat.log2 c.p + 1

/-- `IW = K + 1`, the width of an index (00_scope.md R9). -/
def indexWidth (c : Config) : Nat := c.k + 1

/-- `v = (pay[1] << 7) | pay[0]`, the 14-bit pitch-bend value (20_memory.md R64; 43_dispatch.md R187). -/
def bendValue (lsb msb : Byte) : Nat := (msb.toNat <<< 7) ||| lsb.toNat

/-- `s = v - 0x2000`, exact signed subtraction (43_dispatch.md R187). -/
def bendSigned (lsb msb : Byte) : Int := (bendValue lsb msb : Int) - 0x2000

end Sys2Proof.Machine
end

