-- ==== Sys2Proof/Machine/Flags.lean ====
section
/-! DEFINITION. The flags and the other functions of the state that the spec names: none of them is stored (10_state.md
R24, R28, R35; 60_exceptions.md R221). -/

namespace Sys2Proof.Machine

/-- `count = dist(rd_idx, wr_idx)`, the number of unread bytes (10_state.md R24). -/
def count (s : State) : Nat := idxDist s.cfg s.rdIdx s.wrIdx

/-- `len_c = dist(rd_idx, wr_view)` (10_state.md R28). -/
def lenC (s : State) : Nat := idxDist s.cfg s.rdIdx s.wrView

/-- `empty_c = (wr_view == rd_idx)` (10_state.md R28). -/
def emptyC (s : State) : Bool := s.wrView == s.rdIdx

/-- `full_p = (dist(rd_view, wr_idx) == C)` (10_state.md R28). -/
def fullP (s : State) : Bool := idxDist s.cfg s.rdView s.wrIdx == s.cfg.cap

/-- The classes 0 to 6 (42_framer_data.md R162). -/
def MsgClass.isFixed : MsgClass → Bool
  | .noteOff => true
  | .noteOn => true
  | .polyPressure => true
  | .controlChange => true
  | .programChange => true
  | .channelPressure => true
  | .pitchBend => true
  | .extended => false
  | .unset => false

/-- `Idle`: `rem == 0` and `cur != Extended` (10_state.md R35). -/
def idle (s : State) : Bool := s.rem == 0 && s.cur != .extended

/-- The source's two-state view of the framer (10_state.md R35). -/
inductive FramerView where
  | idle
  | awaitingData (cur : MsgClass) (chan : Chan) (rem : Nat) (payload : List Byte)
  deriving DecidableEq, Repr

/-- The two-state view as a function of the five elements (10_state.md R35). -/
def framerView (s : State) : FramerView :=
  if idle s then .idle else .awaitingData s.cur s.chan s.rem (payBytes s s.widx)

/-! ### The four error conditions (60_exceptions.md R221 to R225) -/

/-- The labels of 60_exceptions.md R221. They stand on no port and in no register. -/
inductive ErrorCondition where
  | ovf
  | stray
  | abandon
  | xcap
  deriving DecidableEq, Repr

/-- The conditions a status byte raises in this state: ABANDON (60_exceptions.md R224). DESIGN CHOICE (log 24): this holds
also when the byte before it was a status byte of a fixed-length class. R221 and R224 make that an ABANDON, R226 says that
two status bytes in a row are no error, and the spec does not say which holds; no element of the state differs. -/
def statusConditions (s : State) : List ErrorCondition :=
  if MsgClass.isFixed s.cur ∧ 0 < s.rem then [.abandon] else []

/-- The conditions a data byte raises in this state: STRAY (R223) and XCAP (R225). -/
def dataConditions (s : State) : List ErrorCondition :=
  (if idle s then [.stray] else []) ++ (if s.cur = .extended ∧ s.rem = 0 then [.xcap] else [])

/-- The conditions a decoded byte raises. -/
def byteConditions (b : Byte) (s : State) : List ErrorCondition :=
  if isStatus b then statusConditions s else dataConditions s

/-- The error conditions an operation raises in this state (60_exceptions.md R221). A drain pass raises those of its own
`DECODE` steps, when they happen. -/
def errorConditions : Instr → State → List ErrorCondition
  | .stNoteOff _, s => statusConditions s
  | .stNoteOn _, s => statusConditions s
  | .stPolyPressure _, s => statusConditions s
  | .stControlChange _, s => statusConditions s
  | .stProgramChange _, s => statusConditions s
  | .stChannelPressure _, s => statusConditions s
  | .stPitchBend _, s => statusConditions s
  | .stExtended _, s => statusConditions s
  | .data _, s => dataConditions s
  | .enq _, s => if fullP s then [.ovf] else []
  | .deq, _ => []
  | .len, _ => []
  | .empty, _ => []
  | .syncW _, _ => []
  | .syncR _, _ => []
  | .decode b, s => byteConditions b s
  | .drain, _ => []
  | .reset, _ => []
  | .configureLine _, _ => []

end Sys2Proof.Machine
end

