-- ==== Sys2Proof/Machine/Events.lean ====
section
/-! DEFINITION. The events of completed messages (43_dispatch.md): one rule per class, and the SysEx of a finalize. -/

namespace Sys2Proof.Machine

/-- An operand on the event port: the low seven bits of a payload byte (30_encoding.md R104; log 16). -/
def operandOf (b : Byte) : Payload := payloadOf b

/-- NoteOff (43_dispatch.md R181): the second data byte is not used. -/
def noteOffEvent (s : State) : Option Event := some (.noteOff s.chan (operandOf (payByte s 0)))

/-- NoteOn (43_dispatch.md R182): velocity 0 is a NoteOff. -/
def noteOnEvent (s : State) : Option Event :=
  if payByte s 1 = 0 then some (.noteOff s.chan (operandOf (payByte s 0)))
  else some (.noteOn s.chan (operandOf (payByte s 0)) (operandOf (payByte s 1)))

/-- PolyPressure (43_dispatch.md R183): no handler, no event. -/
def polyPressureEvent (_ : State) : Option Event := none

/-- ControlChange (43_dispatch.md R184). -/
def controlChangeEvent (s : State) : Option Event :=
  some (.controlChange s.chan (operandOf (payByte s 0)) (operandOf (payByte s 1)))

/-- ProgramChange (43_dispatch.md R185). -/
def programChangeEvent (s : State) : Option Event := some (.programChange s.chan (operandOf (payByte s 0)))

/-- ChannelPressure (43_dispatch.md R186): no handler, no event. -/
def channelPressureEvent (_ : State) : Option Event := none

/-- PitchBend (43_dispatch.md R187). -/
def pitchBendEvent (s : State) : Option Event :=
  some (.pitchBend s.chan (bendSigned (payByte s 0) (payByte s 1)))

/-- `DISPATCH(cur, chan, pay)` (43_dispatch.md R180): the rule of the class. An Extended message is never dispatched here
(42_framer_data.md R164), and the data-byte step stops before it would dispatch with Unset (log 13). -/
def dispatchEvent (s : State) : Option Event :=
  match s.cur with
  | .noteOff => noteOffEvent s
  | .noteOn => noteOnEvent s
  | .polyPressure => polyPressureEvent s
  | .controlChange => controlChangeEvent s
  | .programChange => programChangeEvent s
  | .channelPressure => channelPressureEvent s
  | .pitchBend => pitchBendEvent s
  | .extended => none
  | .unset => none

/-- FINALIZE (41_framer_status.md R142; 43_dispatch.md R188): a status byte that arrives while `cur == Extended` reports
the captured bytes, however many there are. -/
def finalizeEvent (s : State) : Option Event :=
  if s.cur = .extended then some (.sysEx s.widx (payBytes s s.widx)) else none

end Sys2Proof.Machine
end

