-- ==== Sys2Proof/Machine/Data.lean ====
section
/-! DEFINITION. The data-byte row (42_framer_data.md). -/

namespace Sys2Proof.Machine

/-- What an accepted data byte emits once it is stored (42_framer_data.md R160): the dispatch of the message it
completes; an Extended message is not completed by counting (R164). -/
def completionEvent (s : State) : Option Event :=
  if s.rem = 0 ∧ s.cur ≠ .extended then dispatchEvent s else none

/-- `DATA_STEP` (42_framer_data.md R160): the one test `rem == 0` covers stray data (R161, R166) and the full Extended
buffer (R165); otherwise the byte is accepted (R162, R163, R164). The two stops are unreachable (R160: `rem > 0` implies
`cur != Unset` and `widx < P`; log 13). -/
def dataStep (b : Byte) (s : State) : Host.Outcome State Fault Refusal :=
  if s.rem = 0 then .next (s.finish .none none)
  else if s.cur = .unset then .fault .noMessageClass
  else if s.cfg.p ≤ s.widx then .fault .payloadOverrun
  else .next ((s.acceptData b).finish .none (completionEvent (s.acceptData b)))

/-- `DATA` (42_framer_data.md R160): the whole byte is stored, bit 7 clear (30_encoding.md R92). -/
def execData (d : Payload) (s : State) : Host.Outcome State Fault Refusal := dataStep (dataByte d) s

end Sys2Proof.Machine
end

