-- ==== Sys2Proof/Machine/Fifo.lean ====
section
/-! DEFINITION. The FIFO operations (40_fifo_ops.md): ENQ, DEQ, LEN, EMPTY, SYNC_W, SYNC_R. -/

namespace Sys2Proof.Machine

/-- `ENQ b` (40_fifo_ops.md R120): reject and count when full, else store and advance. -/
def execEnq (b : Byte) (s : State) : Host.Outcome State Fault Refusal :=
  if fullP s then .next (s.countDrop.finish .enqFull none)
  else .next ((s.pushByte b).finish .enqOk none)

/-- The oldest unread byte, `mem[slot(rd_idx)]` (10_state.md R23). -/
def oldestByte (s : State) : Byte := memByte s (slot s.cfg s.rdIdx)

/-- `DEQ` (40_fifo_ops.md R121): nothing changes when empty, else the oldest byte is returned and `rd_idx` advances. -/
def execDeq (s : State) : Host.Outcome State Fault Refusal :=
  if emptyC s then .next (s.finish .deqEmpty none)
  else .next (s.popByte.finish (.deqByte (oldestByte s)) none)

/-- `LEN` (40_fifo_ops.md R122). -/
def execLen (s : State) : Host.Outcome State Fault Refusal := .next (s.finish (.len (lenC s)) none)

/-- `EMPTY` (40_fifo_ops.md R123). -/
def execEmpty (s : State) : Host.Outcome State Fault Refusal := .next (s.finish (.isEmpty (emptyC s)) none)

/-- `v` lies from `view` forward up to and including `idx` (40_fifo_ops.md R124, R125). -/
def syncReaches (c : Config) (view idx v : Nat) : Bool :=
  decide (v < c.modulus) && decide (idxDist c view v ≤ idxDist c view idx)

/-- `SYNC_W` to the index value `v` (40_fifo_ops.md R124). In EXACT mode the step does not exist (log 11). -/
def execSyncW (v : Nat) (s : State) : Host.Outcome State Fault Refusal :=
  if s.cfg.syncMode = .exact then .refused .noSyncInExactMode
  else if syncReaches s.cfg s.wrView s.wrIdx v then .next (({ s with wrView := v } : State).finish .none none)
  else .refused .syncTargetIllegal

/-- `SYNC_R` to the index value `v` (40_fifo_ops.md R125). In EXACT mode the step does not exist (log 11). -/
def execSyncR (v : Nat) (s : State) : Host.Outcome State Fault Refusal :=
  if s.cfg.syncMode = .exact then .refused .noSyncInExactMode
  else if syncReaches s.cfg s.rdView s.rdIdx v then .next (({ s with rdView := v } : State).finish .none none)
  else .refused .syncTargetIllegal

end Sys2Proof.Machine
end

