-- ==== Sys2Proof/Machine/Status.lean ====
section
/-! DEFINITION. The status-byte rows (41_framer_status.md): the shared step, then one meaning per class. -/

namespace Sys2Proof.Machine

/-- `STATUS_STEP` (41_framer_status.md R141) with the class and channel of the byte: FINALIZE with the state before the
step, then CLASSIFY. A finalize beyond `pay[P-1]` stops (log 13). -/
def statusStep (k : MsgClass) (c : Chan) (s : State) : Host.Outcome State Fault Refusal :=
  if s.cur = .extended ∧ s.cfg.p < s.widx then .fault .payloadOverrun
  else .next ((s.classify k c (required s.cfg k)).finish .none (finalizeEvent s))

/-- `ST_NOTE_OFF` (41_framer_status.md R143). -/
def execStNoteOff (c : Chan) (s : State) : Host.Outcome State Fault Refusal := statusStep .noteOff c s

/-- `ST_NOTE_ON` (41_framer_status.md R144). -/
def execStNoteOn (c : Chan) (s : State) : Host.Outcome State Fault Refusal := statusStep .noteOn c s

/-- `ST_POLY_PRESSURE` (41_framer_status.md R145). -/
def execStPolyPressure (c : Chan) (s : State) : Host.Outcome State Fault Refusal := statusStep .polyPressure c s

/-- `ST_CONTROL_CHANGE` (41_framer_status.md R146). -/
def execStControlChange (c : Chan) (s : State) : Host.Outcome State Fault Refusal := statusStep .controlChange c s

/-- `ST_PROGRAM_CHANGE` (41_framer_status.md R147). -/
def execStProgramChange (c : Chan) (s : State) : Host.Outcome State Fault Refusal := statusStep .programChange c s

/-- `ST_CHANNEL_PRESSURE` (41_framer_status.md R148). -/
def execStChannelPressure (c : Chan) (s : State) : Host.Outcome State Fault Refusal := statusStep .channelPressure c s

/-- `ST_PITCH_BEND` (41_framer_status.md R149). -/
def execStPitchBend (c : Chan) (s : State) : Host.Outcome State Fault Refusal := statusStep .pitchBend c s

/-- `ST_EXTENDED` (41_framer_status.md R150). -/
def execStExtended (c : Chan) (s : State) : Host.Outcome State Fault Refusal := statusStep .extended c s

end Sys2Proof.Machine
end

