-- ==== Sys2Proof/Machine/Boundary.lean ====
section
/-! DEFINITION. DECODE (41_framer_status.md R140), DRAIN and the entry points (44_drain_and_boundary.md), RESET
(70_reset_and_hazards.md R250). -/

namespace Sys2Proof.Machine

/-- The body of `DECODE b` (41_framer_status.md R140): a status step or a data step, by `b[7]`. -/
def decodeStep (b : Byte) (s : State) : Host.Outcome State Fault Refusal :=
  if isStatus b then statusStep (classOfIndex (classIndex b)) (channelOf b) s else dataStep b s

/-- `DECODE b` (41_framer_status.md R140), direct (44_drain_and_boundary.md R205). -/
def execDecode (b : Byte) (s : State) : Host.Outcome State Fault Refusal := decodeStep b s

/-- The `DEQ` step of a drain pass (44_drain_and_boundary.md R200): on `empty` the pass ends, else its next step decodes
the byte. -/
def passDeq (s : State) : Host.Outcome State Fault Refusal :=
  if emptyC s then .next ((s.setPass .idle).finish .drainDone none)
  else .next ((s.popByte.setPass (.atDecode (oldestByte s))).finish (.drainByte (oldestByte s)) none)

/-- The `DECODE` step of a drain pass; the next step is a `DEQ` again (44_drain_and_boundary.md R200). -/
def passDecode (b : Byte) (s : State) : Host.Outcome State Fault Refusal := decodeStep b (s.setPass .atDeq)

/-- The next step of the pass in progress; without one, nothing happens. -/
def passStep (s : State) : Host.Outcome State Fault Refusal :=
  match s.pass with
  | .idle => .next (s.finish .none none)
  | .atDeq => passDeq s
  | .atDecode b => passDecode b s

/-- `DRAIN` (44_drain_and_boundary.md R200): a pass is a sequence of steps, of which this is the first, its first `DEQ`;
`passStep` is each later one (log 8). `DRAIN` is not re-entrant (70_reset_and_hazards.md R256). -/
def execDrain (s : State) : Host.Outcome State Fault Refusal :=
  match s.pass with
  | .idle => passDeq s
  | .atDeq => .refused .drainNotReentrant
  | .atDecode _ => .refused .drainNotReentrant

/-- `RESET` (70_reset_and_hazards.md R250): every element of 10_state.md R40 takes its reset value, the cells of the two
arrays become unspecified again (R41), a new event list starts, a pass in progress is ended (R251). The parameters and
the environment's turns are not the hardware's and stay (log 6). DESIGN CHOICE (log 25): the step presents nothing, so that
`drain_done` is not raised for a pass that RESET ends; the spec does not say whether it is. -/
def execReset (s : State) : Host.Outcome State Fault Refusal :=
  .next { State.resetWith s.cfg with turns := s.turns, epoch := s.epoch + 1 }

/-- `CONFIGURE_LINE r` (44_drain_and_boundary.md R204): passes straight to the external byte source; a step that changes
nothing here (log 19). -/
def execConfigureLine (_r : Nat) (s : State) : Host.Outcome State Fault Refusal := .next (s.finish .none none)

/-- Discard the result of an operation: `onByteReceived` has no return value (44_drain_and_boundary.md R202;
log 21). -/
def discardResult : Host.Outcome State Fault Refusal → Host.Outcome State Fault Refusal
  | .next s => .next { s with out := { s.out with ret := .none } }
  | .fault f => .fault f
  | .refused r => .refused r

end Sys2Proof.Machine
end

