-- ==== Sys2Proof/Machine/Dispatch.lean ====
section
/-! DEFINITION. exec: one arm per row of spec/opcode_table.json. -/

namespace Sys2Proof.Machine

def exec (i : Instr) (s : State) : Host.Outcome State Fault Refusal :=
  match i with
  | .stNoteOff c => Sys2Proof.Machine.execStNoteOff c s
  | .stNoteOn c => Sys2Proof.Machine.execStNoteOn c s
  | .stPolyPressure c => Sys2Proof.Machine.execStPolyPressure c s
  | .stControlChange c => Sys2Proof.Machine.execStControlChange c s
  | .stProgramChange c => Sys2Proof.Machine.execStProgramChange c s
  | .stChannelPressure c => Sys2Proof.Machine.execStChannelPressure c s
  | .stPitchBend c => Sys2Proof.Machine.execStPitchBend c s
  | .stExtended c => Sys2Proof.Machine.execStExtended c s
  | .data d => Sys2Proof.Machine.execData d s
  | .enq b => Sys2Proof.Machine.execEnq b s
  | .deq => Sys2Proof.Machine.execDeq s
  | .len => Sys2Proof.Machine.execLen s
  | .empty => Sys2Proof.Machine.execEmpty s
  | .syncW v => Sys2Proof.Machine.execSyncW v s
  | .syncR v => Sys2Proof.Machine.execSyncR v s
  | .decode b => Sys2Proof.Machine.execDecode b s
  | .drain => Sys2Proof.Machine.execDrain s
  | .reset => Sys2Proof.Machine.execReset s
  | .configureLine r => Sys2Proof.Machine.execConfigureLine r s

end Sys2Proof.Machine
end

