-- ==== Sys2Proof/Machine/Fetch.lean ====
section
/-! DEFINITION. What the next step is: the head of the environment's turns, decoded and held to the contract of who may
call what (44_drain_and_boundary.md R206; 60_exceptions.md R234). -/

namespace Sys2Proof.Machine

/-- The operations that are consumer activities and exclude a pass in progress (70_reset_and_hazards.md R256). `LEN` and
`EMPTY` are observers and may be read during a pass (log 10); `DRAIN` refuses itself. -/
def occupiesConsumer : Instr → Bool
  | .stNoteOff _ => true
  | .stNoteOn _ => true
  | .stPolyPressure _ => true
  | .stControlChange _ => true
  | .stProgramChange _ => true
  | .stChannelPressure _ => true
  | .stPitchBend _ => true
  | .stExtended _ => true
  | .data _ => true
  | .enq _ => false
  | .deq => true
  | .len => false
  | .empty => false
  | .syncW _ => false
  | .syncR _ => false
  | .decode _ => true
  | .drain => false
  | .reset => false
  | .configureLine _ => false

/-- Whether the contract gives agent `a` no operation `i` now (93_implementation_defined.md U3; log 9). -/
def breach (a : Agent) (i : Instr) (s : State) : Option Refusal :=
  if a ≠ i.agent then some (.wrongContext a)
  else if occupiesConsumer i ∧ s.pass ≠ .idle then some .consumerBusy
  else none

/-- What a step does. -/
inductive Action where
  /-- no agent steps -/
  | rest
  /-- the consumer takes the next step of its drain pass -/
  | passStep
  /-- an operation is performed -/
  | perform (i : Instr)
  /-- an operation is performed and its result discarded (44_drain_and_boundary.md R202) -/
  | performQuietly (i : Instr)
  /-- the contract gives the request no meaning -/
  | refuse (r : Refusal)
  deriving DecidableEq, Repr

/-- Agent `a` calls `i`. -/
def fetchCall (a : Agent) (i : Instr) (s : State) : Action × State :=
  match breach a i s with
  | some r => (.refuse r, s)
  | none => (.perform i, s)

/-- The refusal of a combination of strobes. -/
def portRefusal : PortError → Refusal
  | .resetNotAlone => .resetNotAlone
  | .twoConsumerRequests => .twoConsumerRequests

/-- The operations of one set of strobes: the first is performed in this step, another one in the next (log 12). -/
def fetchPins (r : Except PortError (List Instr)) (s : State) : Action × State :=
  match r with
  | .error e => (.refuse (portRefusal e), s)
  | .ok [] => (.rest, s)
  | .ok (i :: is) => fetchCall i.agent i { s with turns := is.map (fun j => .call j.agent j) ++ s.turns }

/-- A pass in progress goes on. -/
def fetchPass (s : State) : Action × State :=
  if s.pass = .idle then (.rest, s) else (.passStep, s)

/-- The next step, and the state with its turn taken. With no turn left a pass in progress goes on, and otherwise no
agent steps (log 3, log 8). -/
def fetch (s : State) : Action × State :=
  match s.turns with
  | [] => fetchPass s
  | .byte b :: ts => fetchCall .consumer (decodeByte b) { s with turns := ts }
  | .call a i :: ts => fetchCall a i { s with turns := ts }
  | .onByteReceived b :: ts => (.performQuietly (.enq b), { s with turns := ts })
  | .drainAndDispatch :: ts => fetchCall .consumer .drain { s with turns := ts }
  | .pins p producerFirst :: ts => fetchPins (decodePorts p producerFirst) { s with turns := ts }
  | .pass :: ts => fetchPass { s with turns := ts }

end Sys2Proof.Machine
end

