-- ==== Sys2Proof/Machine/Step.lean ====
section
/-! DEFINITION. One step of the machine. -/

namespace Sys2Proof.Machine

/-- One step of one agent (00_scope.md R14): take the next turn and do what it asks. When no agent steps, nothing is
presented and nothing else changes (log 3). -/
def step (s : State) : Host.Outcome State Fault Refusal :=
  match fetch s with
  | (.rest, s') => .next (s'.finish .none none)
  | (.passStep, s') => passStep s'
  | (.perform i, s') => exec i s'
  | (.performQuietly i, s') => discardResult (exec i s')
  | (.refuse r, _) => .refused r

/-- `s` with the table's byte `w` as the very next turn: the consumer, with no pass in progress, hands it to the framer
(44_drain_and_boundary.md R205; log 2). -/
def State.withFetchWord (s : State) (_nbits w : Nat) : State :=
  { s with turns := .byte (BitVec.ofNat 8 w) :: s.turns, pass := .idle }

end Sys2Proof.Machine
end

