-- ==== Sys2Proof/Machine/Ports.lean ====
section
/-! DEFINITION. The output ports as functions of the state: operation results and continuous outputs (30_encoding.md
R102), and the event port (30 R104). A field that is not driven is unspecified (93_implementation_defined.md U4, U6) and
has no value here (log 16). -/

namespace Sys2Proof.Machine

/-- The event port (30_encoding.md R104). Byte `i` of `bytes` stands in bits `8*i+7 : 8*i` of `evt_bytes`; the bus beyond
byte `n-1` is unspecified. -/
structure EventPort where
  valid : Bool
  kind : Option (BitVec 3)
  chan : Option (BitVec 4)
  d0 : Option (BitVec 7)
  d1 : Option (BitVec 7)
  bend : Option (BitVec 14)
  count : Option Nat
  bytes : Option (List Byte)
  deriving DecidableEq, Repr

/-- The rows of the table of 30_encoding.md R104. -/
def eventPort : Option Event → EventPort
  | none => ⟨false, none, none, none, none, none, none, none⟩
  | some (.noteOff ch note) => ⟨true, some 0, some ch, some note, none, none, none, none⟩
  | some (.noteOn ch note vel) => ⟨true, some 1, some ch, some note, some vel, none, none, none⟩
  | some (.controlChange ch ctl val) => ⟨true, some 3, some ch, some ctl, some val, none, none, none⟩
  | some (.programChange ch prog) => ⟨true, some 4, some ch, some prog, none, none, none, none⟩
  | some (.pitchBend ch v) => ⟨true, some 6, some ch, none, none, some (BitVec.ofInt 14 v), none, none⟩
  | some (.sysEx n bytes) => ⟨true, some 7, none, none, none, none, some n, some bytes⟩

/-- `enq_ok`: 1 = ok, 0 = full, driven in the step of an `ENQ`. -/
def enqOkPort : Ret → Option Bool
  | .enqOk => some true
  | .enqFull => some false
  | .none => none
  | .deqByte _ => none
  | .deqEmpty => none
  | .len _ => none
  | .isEmpty _ => none
  | .drainByte _ => none
  | .drainDone => none

/-- `deq_present`, driven in the step of a `DEQ` that the consumer calls. DESIGN CHOICE (log 23): it is not driven in the
`DEQ` steps of a drain pass, of which the `DRAIN` row of 30_encoding.md R102 names no such port. -/
def deqPresentPort : Ret → Option Bool
  | .deqByte _ => some true
  | .deqEmpty => some false
  | .none => none
  | .enqOk => none
  | .enqFull => none
  | .len _ => none
  | .isEmpty _ => none
  | .drainByte _ => none
  | .drainDone => none

/-- `deq_data`, unspecified when `deq_present` is 0 (40_fifo_ops.md R121); not driven in a drain pass (log 23). -/
def deqDataPort : Ret → Option Byte
  | .deqByte b => some b
  | .none => none
  | .enqOk => none
  | .enqFull => none
  | .deqEmpty => none
  | .len _ => none
  | .isEmpty _ => none
  | .drainByte _ => none
  | .drainDone => none

/-- The output ports of 30_encoding.md R102 and R104. -/
structure PortOut where
  enqOk : Option Bool
  deqPresent : Option Bool
  deqData : Option Byte
  drainDone : Bool
  len : Nat
  empty : Bool
  dropCount : Nat
  event : EventPort
  deriving DecidableEq, Repr

/-- What the ports show after a step: the step's result and event, and the continuous outputs. -/
def portOut (s : State) : PortOut where
  enqOk := enqOkPort s.out.ret
  deqPresent := deqPresentPort s.out.ret
  deqData := deqDataPort s.out.ret
  drainDone := s.out.ret == .drainDone
  len := lenC s
  empty := emptyC s
  dropCount := s.dropCount
  event := eventPort s.out.evt

end Sys2Proof.Machine
end

