-- ==== Sys2Proof/Safety.lean ====
section
/-! DEFINITION. The terms the claims use: the invariants of the machine (10_state.md R24, R26, R34), runs of operations,
the unread bytes, what a message is to report, and the history of a run. -/

namespace Sys2Proof.Machine

/-! ### Invariants -/

/-- The FIFO: indices in range, the view invariant of 10_state.md R26 (from which R24 follows), the counter's width
(R27), and in EXACT mode views equal to their indices (40_fifo_ops.md R126). -/
structure FifoInv (s : State) : Prop where
  wrIdxInRange : s.wrIdx < s.cfg.modulus
  rdIdxInRange : s.rdIdx < s.cfg.modulus
  wrViewInRange : s.wrView < s.cfg.modulus
  rdViewInRange : s.rdView < s.cfg.modulus
  viewsInOrder : idxDist s.cfg s.rdView s.rdIdx + idxDist s.cfg s.rdIdx s.wrView + idxDist s.cfg s.wrView s.wrIdx =
    idxDist s.cfg s.rdView s.wrIdx
  spanFits : idxDist s.cfg s.rdView s.wrIdx ≤ s.cfg.cap
  dropCountFits : s.dropCount < 2 ^ s.cfg.dropW
  exactViews : s.cfg.syncMode = .exact → s.wrView = s.wrIdx ∧ s.rdView = s.rdIdx

/-- The framer: 10_state.md R34 items 2, 3 and 5, for legal parameters. -/
structure FramerInv (s : State) : Prop where
  legal : s.cfg.legal = true
  lengths : s.cur ≠ .unset → s.rem + s.widx = required s.cfg s.cur
  unsetIsReset : s.cur = .unset → s.chan = 0 ∧ s.rem = 0 ∧ s.widx = 0
  widxFits : s.widx ≤ s.cfg.p
  remFits : s.rem ≤ s.cfg.p

/-- The two arrays: canonical form, cells inside the array, bit 7 of every payload byte clear (10_state.md R32), and
every cell that a rule may read has been written (10_state.md R21, R32, R41). -/
structure StorageInv (s : State) : Prop where
  memForm : s.mem.wf
  payForm : s.pay.wf
  memCells : ∀ x ∈ s.mem, x.1 < s.cfg.cap
  payCells : ∀ x ∈ s.pay, x.1 < s.cfg.p ∧ isStatus x.2 = false
  unreadWritten : ∀ n < count s, (s.mem.read (slot s.cfg ((s.rdIdx + n) % s.cfg.modulus))).isSome = true
  payWritten : ∀ n < s.widx, (s.pay.read n).isSome = true

/-- The ranges of an event's fields (43_dispatch.md R180); channels and 7-bit operands are in range by their widths. -/
def eventInRange (c : Config) : Event → Prop
  | .noteOff _ _ => True
  | .noteOn _ _ vel => vel ≠ 0
  | .controlChange _ _ _ => True
  | .programChange _ _ => True
  | .pitchBend _ v => -8192 ≤ v ∧ v ≤ 8191
  | .sysEx n bytes => n ≤ c.p ∧ bytes.length = n ∧ ∀ b ∈ bytes, isStatus b = false

/-- Every event of the record is in range. -/
def EventInv (s : State) : Prop := ∀ e ∈ s.events, eventInRange s.cfg e

/-! ### Frames -/

/-- The parameters and every FIFO element are the same. -/
structure FifoSame (s t : State) : Prop where
  cfg : t.cfg = s.cfg
  mem : t.mem = s.mem
  wrIdx : t.wrIdx = s.wrIdx
  rdIdx : t.rdIdx = s.rdIdx
  wrView : t.wrView = s.wrView
  rdView : t.rdView = s.rdView
  dropCount : t.dropCount = s.dropCount

/-- Every framer element is the same. -/
structure FramerSame (s t : State) : Prop where
  cur : t.cur = s.cur
  chan : t.chan = s.chan
  rem : t.rem = s.rem
  pay : t.pay = s.pay
  widx : t.widx = s.widx

/-- The drain pass, the environment's turns and the index of the free contents are the same. -/
structure DriverSame (s t : State) : Prop where
  pass : t.pass = s.pass
  turns : t.turns = s.turns
  epoch : t.epoch = s.epoch

/-! ### Runs of operations -/

/-- Perform operations one after another, stopping at the first stop. -/
def performAll : List Instr → State → Host.Outcome State Fault Refusal
  | [], s => .next s
  | i :: is, s =>
    match exec i s with
    | .next t => performAll is t
    | .fault f => .fault f
    | .refused r => .refused r

/-- The `n` bytes from the read position on, oldest first (10_state.md R24). -/
def bytesFromRead (s : State) (n : Nat) : List Byte :=
  (List.range n).map fun j => memByte s (slot s.cfg ((s.rdIdx + j) % s.cfg.modulus))

/-- The unread bytes, oldest first (10_state.md R24). -/
def unread (s : State) : List Byte := bytesFromRead s (count s)

/-- The unread bytes the consumer can see, oldest first (10_state.md R28). -/
def visible (s : State) : List Byte := bytesFromRead s (lenC s)

/-- Whether a turn brings a byte to enqueue. -/
def Turn.mayEnqueue : Turn → Bool
  | .byte _ => false
  | .call _ i => i.agent == .producer
  | .onByteReceived _ => true
  | .drainAndDispatch => false
  | .pins p _ => p.enqValid
  | .pass => false

/-- The end of a run (70_reset_and_hazards.md R262): the environment has no more bytes to enqueue, whatever other turns it
has left, no pass is in progress, the FIFO is empty and both views have caught up. -/
def runOver (s : State) : Bool :=
  !s.turns.any Turn.mayEnqueue && s.pass == .idle && s.wrIdx == s.rdIdx && s.wrView == s.wrIdx && s.rdView == s.rdIdx

/-- The final observation of a run (70_reset_and_hazards.md R262): the event list and the framer state, of `pay` the bytes
of the current message. -/
structure Observation where
  events : List Event
  cur : MsgClass
  chan : Chan
  rem : Nat
  widx : Nat
  payload : List Byte
  deriving DecidableEq, Repr

def finalObservation (s : State) : Observation where
  events := s.events
  cur := s.cur
  chan := s.chan
  rem := s.rem
  widx := s.widx
  payload := payBytes s s.widx

/-! ### Messages -/

/-- The event a complete message reports (43_dispatch.md R181 to R188); an Extended message keeps the first `P` bytes. -/
def messageEvent (c : Config) : Message → Option Event
  | .noteOff ch note _ => some (.noteOff ch note)
  | .noteOn ch note vel => if vel = 0 then some (.noteOff ch note) else some (.noteOn ch note vel)
  | .polyPressure _ _ _ => none
  | .controlChange ch ctl val => some (.controlChange ch ctl val)
  | .programChange ch prog => some (.programChange ch prog)
  | .channelPressure _ _ => none
  | .pitchBend ch bend => some (.pitchBend ch bend)
  | .extended _ ds => some (.sysEx (min ds.length c.p) ((ds.take c.p).map dataByte))

/-- The state after a status byte of class `k` and channel `c` that arrives in `s` (41_framer_status.md R141). -/
def afterStatus (s : State) (k : MsgClass) (c : Chan) (need : Nat) (e : Option Event) : State :=
  { s with
    cur := k
    chan := c
    rem := need
    widx := 0
    events := s.events ++ e.toList
    out := { ret := .none, evt := e } }

/-- The `SysEx` a status byte reports when it ends an Extended message, written out (41_framer_status.md R142). -/
def endedExtended (s : State) : Option Event :=
  if s.cur = .extended then some (.sysEx s.widx ((List.range s.widx).map (payByte s))) else none

/-- A whole message of two data bytes from `s`: the status byte `0x80 + 16 k + c` selects `row`; the row ends an Extended
message and classifies; the first data byte is stored and emits nothing; the second completes the message, which reports
`e`. Nothing but the framer, the event record and the output changes. -/
def TwoDataByteMessage (row : Instr) (k : MsgClass) (base : Byte) (c : Chan) (d0 d1 : Payload) (e : Option Event)
    (s : State) : Prop :=
  decodeByte (base + c.setWidth 8) = row ∧
  exec row s = .next (afterStatus s k c 2 (endedExtended s)) ∧
  ∃ t u, exec (.data d0) (afterStatus s k c 2 (endedExtended s)) = .next t ∧ exec (.data d1) t = .next u ∧
    t.out.evt = none ∧ t.events = s.events ++ (endedExtended s).toList ∧
    u.out.evt = e ∧ u.events = s.events ++ (endedExtended s).toList ++ e.toList ∧
    u.cur = k ∧ u.chan = c ∧ u.rem = 0 ∧ u.widx = 2 ∧
    u.pay.read 0 = some (d0.setWidth 8) ∧ u.pay.read 1 = some (d1.setWidth 8) ∧
    (∀ a, a ≠ 0 → a ≠ 1 → u.pay.read a = s.pay.read a) ∧ FifoSame s u ∧ DriverSame s u

/-- A whole message of one data byte from `s`, in the same form. -/
def OneDataByteMessage (row : Instr) (k : MsgClass) (base : Byte) (c : Chan) (d0 : Payload) (e : Option Event)
    (s : State) : Prop :=
  decodeByte (base + c.setWidth 8) = row ∧
  exec row s = .next (afterStatus s k c 1 (endedExtended s)) ∧
  ∃ u, exec (.data d0) (afterStatus s k c 1 (endedExtended s)) = .next u ∧
    u.out.evt = e ∧ u.events = s.events ++ (endedExtended s).toList ++ e.toList ∧
    u.cur = k ∧ u.chan = c ∧ u.rem = 0 ∧ u.widx = 1 ∧
    u.pay.read 0 = some (d0.setWidth 8) ∧ (∀ a, a ≠ 0 → u.pay.read a = s.pay.read a) ∧
    FifoSame s u ∧ DriverSame s u

/-! ### The history of a run -/

/-- The byte a step from `s` to `t` accepts: the operand of an `ENQ` whose step advances the write index. -/
def acceptedBy (s t : State) : List Byte :=
  match (fetch s).1 with
  | .perform (.enq b) => if t.wrIdx = s.wrIdx then [] else [b]
  | .performQuietly (.enq b) => if t.wrIdx = s.wrIdx then [] else [b]
  | _ => []

/-- The byte the latest step dequeued, by `DEQ` or within a drain pass. -/
def takenBy (t : State) : List Byte :=
  match t.out.ret with
  | .deqByte b => [b]
  | .drainByte b => [b]
  | _ => []

/-- The bytes accepted in the next `n` steps, in order. -/
def acceptedIn : Nat → State → List Byte
  | 0, _ => []
  | n + 1, s =>
    match step s with
    | .next t => acceptedBy s t ++ acceptedIn n t
    | _ => []

/-- The bytes dequeued in the next `n` steps, in order. -/
def takenIn : Nat → State → List Byte
  | 0, _ => []
  | n + 1, s =>
    match step s with
    | .next t => takenBy t ++ takenIn n t
    | _ => []

/-- Whether a turn may perform a `RESET`. -/
def Turn.mayReset : Turn → Bool
  | .byte _ => false
  | .call _ i => i == .reset
  | .onByteReceived _ => false
  | .drainAndDispatch => false
  | .pins p _ => p.rst
  | .pass => false

/-! ### Unending executions and fairness -/

/-- An unending execution: `run n` is the state before step `n` and `act n` what that step does. Before each step the
environment may add turns after those it has already decided on, so that every interleaving of the agents, for ever, is an
execution (00_scope.md R14; log 2, log 17). -/
def IsExecution (run : Nat → State) (act : Nat → Action) : Prop :=
  ∀ n, ∃ new : List Turn,
    act n = (fetch { run n with turns := (run n).turns ++ new }).1 ∧
    step { run n with turns := (run n).turns ++ new } = .next (run (n + 1))

/-- Weak fairness of the SYNC agent (40_fifo_ops.md R124, R125; 20_memory.md R71 (e)): if a view differs from its index
continuously, a SYNC step that advances the view eventually happens. -/
def SyncFair (run : Nat → State) (act : Nat → Action) : Prop :=
  (∀ n, (∀ m, n ≤ m → (run m).wrView ≠ (run m).wrIdx) →
    ∃ m v, n ≤ m ∧ act m = .perform (.syncW v) ∧ v ≠ (run m).wrView) ∧
  (∀ n, (∀ m, n ≤ m → (run m).rdView ≠ (run m).rdIdx) →
    ∃ m v, n ≤ m ∧ act m = .perform (.syncR v) ∧ v ≠ (run m).rdView)

/-- Fairness to the consumer in a drain pass (44_drain_and_boundary.md R201; 93_implementation_defined.md U10): if a pass is
in progress continuously, its next step eventually happens. -/
def PassFair (run : Nat → State) (act : Nat → Action) : Prop :=
  ∀ n, (∀ m, n ≤ m → (run m).pass ≠ .idle) → ∃ m, n ≤ m ∧ act m = .passStep

/-- How far an index goes forward in the `k` steps from step `n` on: the sum of its advances. -/
def advanceIn (c : Config) (index : Nat → Nat) (n : Nat) : Nat → Nat
  | 0 => 0
  | k + 1 => advanceIn c index n k + idxDist c (index (n + k)) (index (n + k + 1))

end Sys2Proof.Machine
end

