-- ==== Sys2Proof/Certificates/Slice0/Obligations.lean ====
section
/-! DEFINITION. The statements for the provers. Each docstring names the rule it formalises; where a statement rests on a
decision or an inference the spec marks as its own, or on a choice of the model, the docstring says so. -/

open Sys2Proof Sys2Proof.Machine

/-! ### Notation of the spec, the byte map, the encodings -/

/-- 00_scope.md R12: `inc`, `dist` (`idxDist` here) and `slot` are arithmetic modulo `M = 2C` and `C`, with the non-negative remainder. -/
def Obligations.IndexArithmeticIsModular : Prop :=
  ∀ (c : Config) (a b : Nat),
    c.modulus = 2 * 2 ^ c.k ∧
    inc c a = (a + 1) % (2 * 2 ^ c.k) ∧
    (idxDist c a b : Int) = ((b : Int) - (a : Int)) % (2 * 2 ^ c.k : Nat) ∧ idxDist c a b < 2 * 2 ^ c.k ∧
    slot c a = a % 2 ^ c.k

/-- 30_encoding.md R105 and R98: every byte selects exactly one row of the byte map, and it is the row the decoder
gives. -/
def Obligations.EveryByteSelectsItsOneRow : Prop :=
  ∀ b : Byte, (byteMap.filter fun r => r.selects b).map (fun r => r.mnemonic) = [(decodeByte b).mnemonic]

/-- 30_encoding.md R105: words written out bit by bit from the rows, and what they stand for. -/
def Obligations.SampleBytesDecodeToTheirRows : Prop :=
  decodeByte 0b10000011#8 = .stNoteOff 3 ∧ decodeByte 0b10010001#8 = .stNoteOn 1 ∧
  decodeByte 0b10100001#8 = .stPolyPressure 1 ∧ decodeByte 0b10110010#8 = .stControlChange 2 ∧
  decodeByte 0b11000111#8 = .stProgramChange 7 ∧ decodeByte 0b11010011#8 = .stChannelPressure 3 ∧
  decodeByte 0b11101001#8 = .stPitchBend 9 ∧ decodeByte 0b11111010#8 = .stExtended 10 ∧
  decodeByte 0b01000000#8 = .data 64

/-- 30_encoding.md R91 to R93, R96, R102: decode and encode agree, for the byte rows, for the byte stream and for the
input strobes, with every operand at every value. The strobes are the spec's own decision D9. -/
def Obligations.DecodeAndEncodeAgree : Prop :=
  (∀ b : Byte, encodeByte (decodeByte b) = some b) ∧
  (∀ (i : Instr) (b : Byte), encodeByte i = some b → decodeByte b = i) ∧
  (∀ (i : Instr) (bs rest : List Byte), encode i = some bs → decode (bs ++ rest) = .ok (i, rest)) ∧
  (∀ (i : Instr) (p : PortIn) (f : Bool), encodePorts i = some p → decodePorts p f = .ok [i])

/-! ### Reset -/

/-- 10_state.md R40, R41, R42 (their values are the spec's own decision D12; the parameters of `State.reset` are the
defaults of 00_scope.md R9): the reset state, its flags, and the framer Idle. -/
def Obligations.ResetLeavesTheStatedValues : Prop :=
  State.reset = State.resetWith { k := 6, p := 32, dropW := 16, syncMode := .exact } ∧
  ∀ c : Config,
    (State.resetWith c).cfg = c ∧
    (State.resetWith c).wrIdx = 0 ∧ (State.resetWith c).rdIdx = 0 ∧ (State.resetWith c).wrView = 0 ∧
    (State.resetWith c).rdView = 0 ∧ (State.resetWith c).dropCount = 0 ∧ (State.resetWith c).cur = .unset ∧
    (State.resetWith c).chan = 0 ∧ (State.resetWith c).rem = 0 ∧ (State.resetWith c).widx = 0 ∧
    (State.resetWith c).events = [] ∧ lenC (State.resetWith c) = 0 ∧ emptyC (State.resetWith c) = true ∧
    fullP (State.resetWith c) = false ∧ framerView (State.resetWith c) = .idle

/-- 70_reset_and_hazards.md R250 and R251 (decision D12): in every state, with a pass in progress too, RESET gives the
reset state of the same parameters in one step: queued bytes and a partial message are lost without an event. That the
environment's turns stay and that the step presents nothing, `drain_done` of a pass it ends included, are the model's
choices (log 6, log 25). -/
def Obligations.ResetStepRestoresTheResetState : Prop :=
  ∀ s : State, ∃ e : Nat, exec .reset s = .next { State.resetWith s.cfg with turns := s.turns, epoch := e }

/-- The invariants hold at the reset state of every legal choice of parameters (10_state.md sections 3, 5 and 8). -/
def Obligations.InvariantsHoldAtReset : Prop :=
  ∀ c : Config, c.legal = true →
    FifoInv (State.resetWith c) ∧ FramerInv (State.resetWith c) ∧ StorageInv (State.resetWith c) ∧
    EventInv (State.resetWith c)

/-! ### Invariants that every step keeps -/

/-- 10_state.md R26, "Every step preserves it", with R24, R27 and 40_fifo_ops.md R126 (inferences and decisions the spec
marks as its own). -/
def Obligations.EveryStepKeepsTheFifoInvariant : Prop :=
  ∀ s t : State, FifoInv s → step s = .next t → FifoInv t

/-- 10_state.md R34 items 2, 3 and 5 (an inference the spec marks as its own). -/
def Obligations.EveryStepKeepsTheFramerInvariant : Prop :=
  ∀ s t : State, FramerInv s → step s = .next t → FramerInv t

/-- 10_state.md R21, R32 and R41, 20_memory.md R61 and R62: the canonical form, every cell inside its array, payload bytes
with bit 7 clear, and every cell that a rule may read written before. -/
def Obligations.EveryStepKeepsTheStorageInvariant : Prop :=
  ∀ s t : State, FifoInv s → FramerInv s → StorageInv s → step s = .next t → StorageInv t

/-- 43_dispatch.md R180: every event is in the ranges of its kind, in particular a NoteOn never has velocity 0 and a SysEx
carries as many bytes as it counts. -/
def Obligations.EveryStepKeepsEventsInRange : Prop :=
  ∀ s t : State, FramerInv s → StorageInv s → EventInv s → step s = .next t → EventInv t

/-- 60_exceptions.md R220: no operation and no step faults; ENQ returns ok or full, DEQ a byte or empty, and DECODE always
completes. -/
def Obligations.TheHardwareNeverFaults : Prop :=
  ∀ s : State, FramerInv s →
    (∀ (i : Instr) (f : Fault), exec i s ≠ .fault f) ∧ (∀ f : Fault, step s ≠ .fault f) ∧
    (∀ b : Byte, ∃ t, exec (.enq b) s = .next t ∧ (t.out.ret = .enqOk ∨ t.out.ret = .enqFull)) ∧
    (∃ t, exec .deq s = .next t ∧ ((∃ b, t.out.ret = .deqByte b) ∨ t.out.ret = .deqEmpty)) ∧
    (∀ b : Byte, ∃ t, exec (.decode b) s = .next t)

/-! ### The FIFO operations -/

/-- 40_fifo_ops.md R120, the accepting case (its reject-new policy is decision D4, the EXACT assignment D5): ENQ stores at
the old write position, advances the index, and changes nothing else. -/
def Obligations.EnqStoresWhenNotFull : Prop :=
  ∀ (b : Byte) (s : State), idxDist s.cfg s.rdView s.wrIdx ≠ 2 ^ s.cfg.k →
    exec (.enq b) s = .next { s with
      mem := s.mem.write (s.wrIdx % 2 ^ s.cfg.k) b
      wrIdx := (s.wrIdx + 1) % (2 * 2 ^ s.cfg.k)
      wrView := if s.cfg.syncMode = .exact then (s.wrIdx + 1) % (2 * 2 ^ s.cfg.k) else s.wrView
      out := { ret := .enqOk, evt := none } }

/-- 40_fifo_ops.md R120 and 60_exceptions.md R222, the rejecting case (decision D4): the byte is discarded and counted,
with saturation, and nothing else changes. -/
def Obligations.EnqRejectsAndCountsWhenFull : Prop :=
  ∀ (b : Byte) (s : State), idxDist s.cfg s.rdView s.wrIdx = 2 ^ s.cfg.k →
    exec (.enq b) s = .next { s with
      dropCount := if s.dropCount < 2 ^ s.cfg.dropW - 1 then s.dropCount + 1 else s.dropCount
      out := { ret := .enqFull, evt := none } }

/-- The frame of ENQ, through reads (20_memory.md sections 1 and 3): an accepted byte is read back from the slot
`wr_idx mod C`, every other cell reads as before, a rejected byte changes no cell; the framer, the read side and the
payload buffer are untouched. -/
def Obligations.EnqWritesOneSlotOnly : Prop :=
  ∀ (b : Byte) (s : State), ∃ t, exec (.enq b) s = .next t ∧
    (∀ a, a ≠ slot s.cfg s.wrIdx → t.mem.read a = s.mem.read a) ∧
    (fullP s = true → ∀ a, t.mem.read a = s.mem.read a) ∧
    (fullP s = false → t.mem.read (slot s.cfg s.wrIdx) = some b) ∧
    (∀ a, t.pay.read a = s.pay.read a) ∧
    FramerSame s t ∧ DriverSame s t ∧ t.rdIdx = s.rdIdx ∧ t.rdView = s.rdView ∧ t.events = s.events

/-- 40_fifo_ops.md R121 (the EXACT assignment is decision D5, no byte on `empty` is decision D13): DEQ on `empty` changes
nothing; otherwise it returns the byte at the old read position, which keeps its value in `mem`, and advances the index. -/
def Obligations.DeqReturnsTheOldestByte : Prop :=
  ∀ s : State,
    (s.wrView = s.rdIdx → exec .deq s = .next { s with out := { ret := .deqEmpty, evt := none } }) ∧
    (s.wrView ≠ s.rdIdx → exec .deq s = .next { s with
      rdIdx := (s.rdIdx + 1) % (2 * 2 ^ s.cfg.k)
      rdView := if s.cfg.syncMode = .exact then (s.rdIdx + 1) % (2 * 2 ^ s.cfg.k) else s.rdView
      out := { ret := .deqByte (memByte s (s.rdIdx % 2 ^ s.cfg.k)), evt := none } })

/-- 40_fifo_ops.md R122: LEN returns `dist(rd_idx, wr_view)`, from 0 to C, which is also the continuous output, and writes
nothing; `LEN -> n` guarantees that
the next `n` DEQ steps succeed; only the consumer shrinks it. -/
def Obligations.LenCountsWhatCanBeDequeued : Prop :=
  ∀ s : State, FifoInv s →
    exec .len s = .next { s with out := { ret := .len (idxDist s.cfg s.rdIdx s.wrView), evt := none } } ∧
    (portOut s).len = idxDist s.cfg s.rdIdx s.wrView ∧
    idxDist s.cfg s.rdIdx s.wrView ≤ 2 ^ s.cfg.k ∧
    (∀ n, n < idxDist s.cfg s.rdIdx s.wrView → ∃ t, performAll (List.replicate (n + 1) .deq) s = .next t ∧
      ∃ b, t.out.ret = .deqByte b) ∧
    (∀ (i : Instr) (t : State), i.agent = .producer ∨ i.agent = .sync → exec i s = .next t →
      idxDist s.cfg s.rdIdx s.wrView ≤ idxDist t.cfg t.rdIdx t.wrView)

/-- 40_fifo_ops.md R123: EMPTY returns `wr_view == rd_idx`, equal to `LEN == 0`, which is also the continuous output, and
writes nothing; when it is false the
next DEQ succeeds; it is the test on which DRAIN stops. That DRAIN on an empty FIFO ends in its own step is the model's
choice (log 8), so the statement is derived. -/
def Obligations.EmptyTellsWhetherDeqSucceeds : Prop :=
  ∀ s : State, FifoInv s →
    exec .empty s = .next { s with out := { ret := .isEmpty (decide (s.wrView = s.rdIdx)), evt := none } } ∧
    (portOut s).empty = decide (s.wrView = s.rdIdx) ∧
    (s.wrView = s.rdIdx ↔ idxDist s.cfg s.rdIdx s.wrView = 0) ∧
    (s.wrView ≠ s.rdIdx → ∃ t b, exec .deq s = .next t ∧ t.out.ret = .deqByte b) ∧
    (s.pass = .idle → s.wrView = s.rdIdx →
      exec .drain s = .next { s with out := { ret := .drainDone, evt := none } })

/-- 40_fifo_ops.md R124 (decision D5): in LAGGED mode SYNC_W moves `wr_view` to any index value from it forward up to
`wr_idx`, `wr_idx` itself among them, and writes nothing else; another value is no legal step, and in EXACT mode the step
does not exist (the two refusals: log 11). -/
def Obligations.SyncWMovesTheConsumerView : Prop :=
  ∀ (v : Nat) (s : State),
    (s.cfg.syncMode = .lagged → v < 2 * 2 ^ s.cfg.k → idxDist s.cfg s.wrView v ≤ idxDist s.cfg s.wrView s.wrIdx →
      exec (.syncW v) s = .next { s with wrView := v, out := { ret := .none, evt := none } }) ∧
    (s.cfg.syncMode = .lagged → s.wrIdx < 2 * 2 ^ s.cfg.k →
      exec (.syncW s.wrIdx) s = .next { s with wrView := s.wrIdx, out := { ret := .none, evt := none } }) ∧
    (s.cfg.syncMode = .lagged → 2 * 2 ^ s.cfg.k ≤ v ∨ idxDist s.cfg s.wrView s.wrIdx < idxDist s.cfg s.wrView v →
      exec (.syncW v) s = .refused .syncTargetIllegal) ∧
    (s.cfg.syncMode = .exact → exec (.syncW v) s = .refused .noSyncInExactMode)

/-- 40_fifo_ops.md R125 (decision D5): the same for SYNC_R, `rd_view` and `rd_idx` (log 11). -/
def Obligations.SyncRMovesTheProducerView : Prop :=
  ∀ (v : Nat) (s : State),
    (s.cfg.syncMode = .lagged → v < 2 * 2 ^ s.cfg.k → idxDist s.cfg s.rdView v ≤ idxDist s.cfg s.rdView s.rdIdx →
      exec (.syncR v) s = .next { s with rdView := v, out := { ret := .none, evt := none } }) ∧
    (s.cfg.syncMode = .lagged → s.rdIdx < 2 * 2 ^ s.cfg.k →
      exec (.syncR s.rdIdx) s = .next { s with rdView := s.rdIdx, out := { ret := .none, evt := none } }) ∧
    (s.cfg.syncMode = .lagged → 2 * 2 ^ s.cfg.k ≤ v ∨ idxDist s.cfg s.rdView s.rdIdx < idxDist s.cfg s.rdView v →
      exec (.syncR v) s = .refused .syncTargetIllegal) ∧
    (s.cfg.syncMode = .exact → exec (.syncR v) s = .refused .noSyncInExactMode)

/-- 10_state.md R28 and 20_memory.md R74 (inferences the spec marks as its own): the consumer never sees more bytes than
there are, the producer never sees more room than there is, and in EXACT mode both see exactly. -/
def Obligations.ViewsAreConservative : Prop :=
  ∀ s : State, FifoInv s →
    lenC s ≤ count s ∧ count s ≤ 2 ^ s.cfg.k ∧ (count s = 0 ↔ s.wrIdx = s.rdIdx) ∧
    (count s = 2 ^ s.cfg.k → fullP s = true) ∧
    (s.cfg.syncMode = .exact →
      lenC s = count s ∧ (emptyC s = true ↔ count s = 0) ∧ (fullP s = true ↔ count s = 2 ^ s.cfg.k))

/-- 20_memory.md R72 on one step (an inference the spec marks as its own): the FIFO is a queue of its unread bytes. An
accepted byte joins at the end, DEQ takes the front, and every other operation but DRAIN and RESET leaves the queue. -/
def Obligations.FifoIsAQueueOfItsUnreadBytes : Prop :=
  ∀ s : State, FifoInv s →
    (∀ b, fullP s = false → ∃ t, exec (.enq b) s = .next t ∧ unread t = unread s ++ [b]) ∧
    (∀ b, fullP s = true → ∃ t, exec (.enq b) s = .next t ∧ unread t = unread s) ∧
    (emptyC s = false → ∃ t b, exec .deq s = .next t ∧ t.out.ret = .deqByte b ∧ unread s = b :: unread t) ∧
    (∀ (i : Instr) (t : State), i ≠ .deq → i ≠ .drain → i ≠ .reset → i.agent ≠ .producer → exec i s = .next t →
      unread t = unread s)

/-- 20_memory.md R72 and R82 over runs (inferences the spec marks as its own): in any run with any interleaving and no
RESET, the bytes dequeued, then the bytes still unread, are the bytes unread before, then the bytes accepted, in order:
nothing is lost, added, duplicated or reordered. When the run is over (70_reset_and_hazards.md R262, decision D16) all of
them have been dequeued. -/
def Obligations.RunsKeepTheByteOrder : Prop :=
  ∀ (n : Nat) (s t : State), FifoInv s → (∀ x ∈ s.turns, Turn.mayReset x = false) →
    Host.Core.run Sys2Proof.core n s = .next t →
    takenIn n s ++ unread t = unread s ++ acceptedIn n s ∧
    (runOver t = true → takenIn n s = unread s ++ acceptedIn n s)

/-- 20_memory.md R73 (an inference the spec marks as its own): from a state whose producer view is exact, as many bytes as
there is room for are all accepted, in order, without a drop; and when that fills the FIFO the next one is rejected. -/
def Obligations.NoLossBelowCapacity : Prop :=
  ∀ (s : State) (bs : List Byte), FifoInv s → s.rdView = s.rdIdx → count s + bs.length ≤ 2 ^ s.cfg.k →
    ∃ t, performAll (bs.map Instr.enq) s = .next t ∧ unread t = unread s ++ bs ∧ t.dropCount = s.dropCount ∧
      (bs ≠ [] → t.out.ret = .enqOk) ∧
      (count s + bs.length = 2 ^ s.cfg.k → ∀ b, ∃ u, exec (.enq b) t = .next u ∧ u.out.ret = .enqFull)

/-- 20_memory.md R80 (an inference the spec marks as its own): an ENQ and a DEQ that both succeed give the same state in
either order, with the same results. -/
def Obligations.EnqAndDeqCommute : Prop :=
  ∀ (b : Byte) (s : State), FifoInv s → fullP s = false → emptyC s = false →
    ∃ t u t' u' : State, exec (.enq b) s = .next t ∧ exec .deq t = .next u ∧
      exec .deq s = .next t' ∧ exec (.enq b) t' = .next u' ∧
      t.out.ret = .enqOk ∧ u'.out.ret = .enqOk ∧ t'.out.ret = u.out.ret ∧ { u with out := u'.out } = u'

/-- 40_fifo_ops.md R126 (decision D5): what an ENQ or a DEQ does in EXACT mode, the same operation followed at once by a
full SYNC step does in LAGGED mode, with the same result. -/
def Obligations.ExactModeIsLaggedModeWithFullSync : Prop :=
  ∀ s : State, FifoInv s → s.cfg.syncMode = .exact →
    (∀ b, ∃ t m u, exec (.enq b) s = .next t ∧
      exec (.enq b) { s with cfg := { s.cfg with syncMode := .lagged } } = .next m ∧ m.out = t.out ∧
      exec (.syncW m.wrIdx) m = .next u ∧ { u with cfg := s.cfg, out := t.out } = t) ∧
    (∃ t m u, exec .deq s = .next t ∧
      exec .deq { s with cfg := { s.cfg with syncMode := .lagged } } = .next m ∧ m.out = t.out ∧
      exec (.syncR m.rdIdx) m = .next u ∧ { u with cfg := s.cfg, out := t.out } = t)

/-- 10_state.md R27 (decision D4): `drop_count` changes only by a rejected ENQ, which adds one up to the maximum
`2^DROP_W - 1`, and by RESET. -/
def Obligations.DropCountCountsRejectedBytes : Prop :=
  ∀ (i : Instr) (s t : State), FifoInv s → exec i s = .next t →
    (i = .reset ∧ t.dropCount = 0) ∨
    (i ≠ .reset ∧ t.dropCount = s.dropCount ∧ ∀ b, i = .enq b → fullP s = true → s.dropCount = 2 ^ s.cfg.dropW - 1) ∨
    (∃ b, i = .enq b ∧ fullP s = true ∧ t.dropCount = s.dropCount + 1 ∧ t.dropCount ≤ 2 ^ s.cfg.dropW - 1)

/-! ### The framer: status bytes -/

/-- 41_framer_status.md R141: a status byte, as the operand of DECODE and as each of the eight status rows, first finalizes,
with the state before the step, then classifies by `k = (b >> 4) - 8` and `c = b & 0x0F`; it writes `cur`, `chan`, `rem` and
`widx`, and neither `pay` nor any FIFO element. -/
def Obligations.StatusRowsFinalizeThenClassify : Prop :=
  ∀ (c : Chan) (s : State), (s.cur = .extended → s.widx ≤ s.cfg.p) →
    exec (.stNoteOff c) s = .next (afterStatus s .noteOff c 2 (endedExtended s)) ∧
    exec (.stNoteOn c) s = .next (afterStatus s .noteOn c 2 (endedExtended s)) ∧
    exec (.stPolyPressure c) s = .next (afterStatus s .polyPressure c 2 (endedExtended s)) ∧
    exec (.stControlChange c) s = .next (afterStatus s .controlChange c 2 (endedExtended s)) ∧
    exec (.stProgramChange c) s = .next (afterStatus s .programChange c 1 (endedExtended s)) ∧
    exec (.stChannelPressure c) s = .next (afterStatus s .channelPressure c 1 (endedExtended s)) ∧
    exec (.stPitchBend c) s = .next (afterStatus s .pitchBend c 2 (endedExtended s)) ∧
    exec (.stExtended c) s = .next (afterStatus s .extended c s.cfg.p (endedExtended s)) ∧
    ∀ b : Byte, isStatus b = true → ∃ k n,
      [(MsgClass.noteOff, 2), (.noteOn, 2), (.polyPressure, 2), (.controlChange, 2), (.programChange, 1),
        (.channelPressure, 1), (.pitchBend, 2), (.extended, s.cfg.p)][b.toNat / 16 - 8]? = some (k, n) ∧
      exec (.decode b) s = .next (afterStatus s k (BitVec.ofNat 4 (b.toNat % 16)) n (endedExtended s))

/-- 41_framer_status.md R140: DECODE is the byte's row; it writes only the five framer elements and the event record, never
the FIFO; it is total, with at most one event, a finalize's at a status byte and a dispatch's at a data byte; and it reads
only the five framer elements (beside the parameters and the free contents of cells never written): another state that
agrees on them gives the same framer and the same event. -/
def Obligations.DecodeRunsTheBytesRow : Prop :=
  ∀ (b : Byte) (s : State), FramerInv s →
    (Instr.decode b).agent = .consumer ∧ exec (.decode b) s = exec (decodeByte b) s ∧
    ∃ t, exec (.decode b) s = .next t ∧ FifoSame s t ∧ DriverSame s t ∧
      (∀ a, t.mem.read a = s.mem.read a) ∧ t.out.ret = .none ∧ t.events = s.events ++ t.out.evt.toList ∧
      (isStatus b = true → t.out.evt = endedExtended s) ∧
      (isStatus b = false → t.out.evt = none ∨ t.out.evt = dispatchEvent t) ∧
      ∀ s' : State, FramerSame s s' → s'.cfg = s.cfg → s'.epoch = s.epoch →
        ∃ t', exec (.decode b) s' = .next t' ∧ FramerSame t t' ∧ t'.out = t.out

/-- 41_framer_status.md R151: a status byte that arrives while a fixed-length message is incomplete drops it with no event;
the payload position returns to 0, and the bytes in `pay` stay. -/
def Obligations.StatusByteAbandonsIncompleteMessage : Prop :=
  ∀ (b : Byte) (s : State), isStatus b = true → s.cur ≠ .unset → s.cur ≠ .extended → 0 < s.rem →
    ∃ t, exec (.decode b) s = .next t ∧ t.out.evt = none ∧ t.events = s.events ∧ t.widx = 0 ∧
      t.cur = classOfIndex (classIndex b) ∧ t.chan = channelOf b ∧ t.rem = required s.cfg t.cur ∧ t.pay = s.pay ∧
      FifoSame s t

/-- 60_exceptions.md R230 and 41_framer_status.md R141: after a status byte `cur`, `chan`, `rem` and `widx` depend on the
byte alone, whatever the states before. -/
def Obligations.StatusByteResynchronises : Prop :=
  ∀ (b : Byte) (s s' t t' : State), isStatus b = true → s.cfg = s'.cfg →
    exec (.decode b) s = .next t → exec (.decode b) s' = .next t' →
    t.cur = t'.cur ∧ t.chan = t'.chan ∧ t.rem = t'.rem ∧ t.widx = t'.widx

/-- 41_framer_status.md R152: the status byte that ends an Extended message is also the status byte of the next one: it
reports the SysEx, is no part of its payload, and classifies as any status byte does, so that the bytes after it are decoded
as from any other state after the same byte; after a NoteOff terminator two data bytes report that NoteOff. -/
def Obligations.TerminatorStartsTheNextMessage : Prop :=
  ∀ (b : Byte) (s : State), FramerInv s → s.cur = .extended → isStatus b = true →
    ∃ t, exec (.decode b) s = .next t ∧
      t.events = s.events ++ [.sysEx s.widx ((List.range s.widx).map (payByte s))] ∧
      t.cur = classOfIndex (classIndex b) ∧ t.chan = channelOf b ∧ t.rem = required s.cfg t.cur ∧ t.widx = 0 ∧
      t.pay = s.pay ∧
      ∀ (c : Chan) (note vel : Payload), b = statusByte 0 c →
        ∃ u, performAll [.decode (dataByte note), .decode (dataByte vel)] t = .next u ∧
          u.events = t.events ++ [.noteOff c note]

/-- 10_state.md R29 and R34 item 4: once `cur` has left Unset it returns to Unset only by RESET. -/
def Obligations.OnlyResetReturnsToUnset : Prop :=
  ∀ (i : Instr) (s t : State), i ≠ .reset → s.cur ≠ .unset → exec i s = .next t → t.cur ≠ .unset

/-! ### The framer: data bytes -/

/-- 42_framer_data.md R161 and R166, 60_exceptions.md R223: a data byte while the framer is Idle, before any status byte
or after a completed message, changes nothing and emits nothing. -/
def Obligations.StrayDataChangesNothing : Prop :=
  ∀ (d : Payload) (s : State), s.rem = 0 → s.cur ≠ .extended →
    errorConditions (.decode (dataByte d)) s = [.stray] ∧
    exec (.decode (dataByte d)) s = .next { s with out := { ret := .none, evt := none } } ∧
    exec (.data d) s = .next { s with out := { ret := .none, evt := none } }

/-- 42_framer_data.md R165 and 60_exceptions.md R225: a data byte when the Extended payload is full changes nothing; full is `widx == P`; the SysEx
that ends such a message has `n == P`. -/
def Obligations.FullExtendedDropsData : Prop :=
  ∀ (d : Payload) (s : State), FramerInv s → s.cur = .extended →
    (s.rem = 0 ↔ s.widx = s.cfg.p) ∧
    (s.rem = 0 → errorConditions (.decode (dataByte d)) s = [.xcap] ∧
      exec (.decode (dataByte d)) s = .next { s with out := { ret := .none, evt := none } } ∧
      exec (.data d) s = .next { s with out := { ret := .none, evt := none } } ∧
      ∀ b, isStatus b = true → ∃ t, exec (.decode b) s = .next t ∧
        t.out.evt = some (.sysEx s.cfg.p ((List.range s.cfg.p).map (payByte s))))

/-- 42_framer_data.md R162: a data byte of an incomplete fixed-length message is stored at `pay[widx]`, `widx` goes up and
`rem` down by one; if `rem` is still above 0 nothing else happens and no event is emitted. -/
def Obligations.DataByteIsStoredInOrder : Prop :=
  ∀ (d : Payload) (s : State), FramerInv s → s.cur ≠ .unset → s.cur ≠ .extended → 0 < s.rem →
    ∃ e, (1 < s.rem → e = none) ∧ exec (.data d) s = .next { s with
      pay := s.pay.write s.widx (d.setWidth 8)
      widx := s.widx + 1
      rem := s.rem - 1
      events := s.events ++ e.toList
      out := { ret := .none, evt := e } }

/-- 42_framer_data.md R163: the last data byte of a fixed-length message is stored and the message is dispatched in the
same step, by the rule of its class, with the byte just stored; `cur`, `chan`, `widx` and `pay` are not reset; it is
dispatched once: the data bytes after it emit nothing. -/
def Obligations.LastDataByteDispatches : Prop :=
  ∀ (d : Payload) (s : State), FramerInv s → s.cur ≠ .unset → s.cur ≠ .extended → s.rem = 1 →
    ∃ t, exec (.data d) s = .next t ∧ t.cur = s.cur ∧ t.chan = s.chan ∧ t.rem = 0 ∧ t.widx = required s.cfg s.cur ∧
      t.pay = s.pay.write s.widx (d.setWidth 8) ∧ t.out.evt = dispatchEvent t ∧
      t.events = s.events ++ (dispatchEvent t).toList ∧ FifoSame s t ∧ DriverSame s t ∧
      ∀ d' : Payload, exec (.data d') t = .next { t with out := { ret := .none, evt := none } }

/-- 42_framer_data.md R164 (that `rem` counts down is decision D8): a data byte of an Extended message with room is stored
and emits nothing, even when it fills the buffer. -/
def Obligations.ExtendedDataAccumulates : Prop :=
  ∀ (d : Payload) (s : State), FramerInv s → s.cur = .extended → 0 < s.rem →
    s.widx < s.cfg.p ∧
    exec (.data d) s = .next { s with
      pay := s.pay.write s.widx (d.setWidth 8)
      widx := s.widx + 1
      rem := s.rem - 1
      out := { ret := .none, evt := none } }

/-- The frame of a data byte, through reads (20_memory.md section 1, 42_framer_data.md section 1): it never touches the
FIFO; when it is accepted the cell `pay[widx]` reads as the byte and every other cell as before; when it is discarded
every cell reads as before; `cur` and `chan` are never written. -/
def Obligations.DataByteWritesOneCellOnly : Prop :=
  ∀ (d : Payload) (s : State), FramerInv s →
    ∃ t, exec (.data d) s = .next t ∧ FifoSame s t ∧ DriverSame s t ∧ t.cur = s.cur ∧ t.chan = s.chan ∧
      (∀ a, t.mem.read a = s.mem.read a) ∧ (∀ a, a ≠ s.widx → t.pay.read a = s.pay.read a) ∧
      (s.rem = 0 → ∀ a, t.pay.read a = s.pay.read a) ∧
      (0 < s.rem → t.pay.read s.widx = some (dataByte d) ∧ s.widx < s.cfg.p)

/-! ### Whole messages, one statement per class -/

/-- 41_framer_status.md R143 and 43_dispatch.md R181: `[0x80|ch, note, any]` reports `NoteOff(ch, note)`, whatever the
second data byte and whatever the state before. -/
def Obligations.NoteOffMessageReportsNoteOff : Prop :=
  ∀ (c : Chan) (note vel : Payload) (s : State), FramerInv s →
    TwoDataByteMessage (.stNoteOff c) .noteOff 0x80 c note vel (some (.noteOff c note)) s

/-- 41_framer_status.md R144 and 43_dispatch.md R182: `[0x90|ch, note, vel]` reports `NoteOn(ch, note, vel)`, or
`NoteOff(ch, note)` when the velocity is 0; `cur` stays NoteOn in either case. -/
def Obligations.NoteOnMessageReportsNoteOnOrNoteOff : Prop :=
  ∀ (c : Chan) (note vel : Payload) (s : State), FramerInv s →
    TwoDataByteMessage (.stNoteOn c) .noteOn 0x90 c note vel
      (if vel = 0 then some (.noteOff c note) else some (.noteOn c note vel)) s

/-- 41_framer_status.md R145 and 43_dispatch.md R183: a PolyPressure message is framed and reports nothing. -/
def Obligations.PolyPressureMessageReportsNothing : Prop :=
  ∀ (c : Chan) (note val : Payload) (s : State), FramerInv s →
    TwoDataByteMessage (.stPolyPressure c) .polyPressure 0xA0 c note val none s

/-- 41_framer_status.md R146 and 43_dispatch.md R184. -/
def Obligations.ControlChangeMessageReportsControlChange : Prop :=
  ∀ (c : Chan) (ctl val : Payload) (s : State), FramerInv s →
    TwoDataByteMessage (.stControlChange c) .controlChange 0xB0 c ctl val (some (.controlChange c ctl val)) s

/-- 41_framer_status.md R147 and 43_dispatch.md R185: a ProgramChange message is complete at its first data byte. -/
def Obligations.ProgramChangeMessageReportsProgramChange : Prop :=
  ∀ (c : Chan) (prog : Payload) (s : State), FramerInv s →
    OneDataByteMessage (.stProgramChange c) .programChange 0xC0 c prog (some (.programChange c prog)) s

/-- 41_framer_status.md R148 and 43_dispatch.md R186: a ChannelPressure message is framed and reports nothing. -/
def Obligations.ChannelPressureMessageReportsNothing : Prop :=
  ∀ (c : Chan) (val : Payload) (s : State), FramerInv s →
    OneDataByteMessage (.stChannelPressure c) .channelPressure 0xD0 c val none s

/-- 41_framer_status.md R149 and 43_dispatch.md R187 (without R187's port value, which is PitchBendPortFlipsBit13): a
PitchBend message reports `(msb << 7 | lsb) - 0x2000`, exactly,
between -8192 and 8191. -/
def Obligations.PitchBendMessageReportsSignedValue : Prop :=
  ∀ (c : Chan) (lsb msb : Payload) (s : State), FramerInv s →
    TwoDataByteMessage (.stPitchBend c) .pitchBend 0xE0 c lsb msb
      (some (.pitchBend c ((msb.toNat * 128 + lsb.toNat : Nat) - 8192 : Int))) s ∧
    -8192 ≤ ((msb.toNat * 128 + lsb.toNat : Nat) - 8192 : Int) ∧
    ((msb.toNat * 128 + lsb.toNat : Nat) - 8192 : Int) ≤ 8191

/-- 43_dispatch.md section 2, R187's port value (an inference the spec marks as its own, decision D17): `evt_bend` is the
14-bit value with bit 13 flipped. -/
def Obligations.PitchBendPortFlipsBit13 : Prop :=
  ∀ (c : Chan) (lsb msb : Payload),
    (eventPort (some (.pitchBend c (bendSigned (dataByte lsb) (dataByte msb))))).bend = some ((msb ++ lsb) ^^^ 0x2000#14)

/-- 30_encoding.md R104's table (the port is decision D9): the kind, channel and operands each event drives. -/
def Obligations.EventPortShowsTheEvent : Prop :=
  ∀ (ch : Chan) (x y : Payload) (v : Int) (n : Nat) (bytes : List Byte),
    eventPort none = ⟨false, none, none, none, none, none, none, none⟩ ∧
    eventPort (some (.noteOff ch x)) = ⟨true, some 0, some ch, some x, none, none, none, none⟩ ∧
    eventPort (some (.noteOn ch x y)) = ⟨true, some 1, some ch, some x, some y, none, none, none⟩ ∧
    eventPort (some (.controlChange ch x y)) = ⟨true, some 3, some ch, some x, some y, none, none, none⟩ ∧
    eventPort (some (.programChange ch x)) = ⟨true, some 4, some ch, some x, none, none, none, none⟩ ∧
    eventPort (some (.pitchBend ch v)) = ⟨true, some 6, some ch, none, none, some (BitVec.ofInt 14 v), none, none⟩ ∧
    eventPort (some (.sysEx n bytes)) = ⟨true, some 7, none, none, none, none, some n, some bytes⟩

/-- 41_framer_status.md R142 and R150, 42_framer_data.md R164 and R165, 43_dispatch.md R188 (the empty message is decision
D11, `rem` counting down is D8): from any state, an Extended status byte and any number of data bytes report nothing; the
next status byte reports their first `P`, and the rest are lost without a sign. -/
def Obligations.ExtendedMessageReportsItsFirstBytes : Prop :=
  ∀ (c : Chan) (ds : List Payload) (b : Byte) (s : State), FramerInv s → isStatus b = true →
    ∃ t u, performAll (.stExtended c :: ds.map Instr.data) s = .next t ∧
      t.events = s.events ++ (endedExtended s).toList ∧ t.cur = .extended ∧ t.chan = c ∧
      t.widx = min ds.length s.cfg.p ∧ t.rem = s.cfg.p - min ds.length s.cfg.p ∧
      exec (.decode b) t = .next u ∧
      u.out.evt = some (.sysEx (min ds.length s.cfg.p) ((ds.take s.cfg.p).map (fun d => d.setWidth 8))) ∧
      u.events = t.events ++ u.out.evt.toList ∧ FifoSame s u

/-- 43_dispatch.md R189, 41_framer_status.md R140 on one operation: the event record only grows, by at most one event per
operation, the one presented on the event port; only byte rows and DECODE emit. -/
def Obligations.AtMostOneEventPerOperation : Prop :=
  ∀ (i : Instr) (s t : State), i ≠ .reset → exec i s = .next t →
    t.events = s.events ++ t.out.evt.toList ∧
    ((∀ b, i ≠ .decode b) → encodeByte i = none → t.out.evt = none)

/-- 43_dispatch.md R189 over streams, with the macros of 30_encoding.md R107 (both marked as the spec's own inferences):
decode any stream of whole messages and then one more status byte, from any state: each message reports its event exactly
once, in order, after the SysEx of an Extended message that was in progress, and nothing else is reported. -/
def Obligations.MessageStreamReportsEachMessageOnce : Prop :=
  ∀ (ms : List Message) (b : Byte) (s : State), FramerInv s → (∀ m ∈ ms, m.wellFormed = true) → isStatus b = true →
    ∃ t, performAll ((ms.flatMap Message.bytes ++ [b]).map Instr.decode) s = .next t ∧ FifoSame s t ∧
      t.events = s.events ++ (endedExtended s).toList ++ ms.flatMap (fun m => (messageEvent s.cfg m).toList)

/-! ### DRAIN, the boundary, the step -/

/-- 44_drain_and_boundary.md R200, its steps (that a pass's first DEQ is the step of DRAIN itself and that a pass goes on
by itself when no turn is left are the model's choices, log 8): DRAIN does a DEQ, and ends when it is empty; a pass holding
a byte decodes it next, then does a DEQ again; a DRAIN during a pass is refused (70_reset_and_hazards.md R256). -/
def Obligations.DrainAlternatesDeqAndDecode : Prop :=
  ∀ s : State,
    (s.pass = .idle → s.wrView = s.rdIdx →
      exec .drain s = .next { s with out := { ret := .drainDone, evt := none } }) ∧
    (s.pass = .idle → s.wrView ≠ s.rdIdx → exec .drain s = .next { s with
      rdIdx := inc s.cfg s.rdIdx
      rdView := if s.cfg.syncMode = .exact then inc s.cfg s.rdIdx else s.rdView
      pass := .atDecode (memByte s (slot s.cfg s.rdIdx))
      out := { ret := .drainByte (memByte s (slot s.cfg s.rdIdx)), evt := none } }) ∧
    (s.pass ≠ .idle → exec .drain s = .refused .drainNotReentrant) ∧
    (∀ b, s.turns = [] → s.pass = .atDecode b → step s = exec (.decode b) { s with pass := .atDeq }) ∧
    (s.turns = [] → s.pass = .atDeq → step s = exec .drain { s with pass := .idle }) ∧
    (∀ b ts, s.turns = .pass :: ts → s.pass = .atDecode b →
      step s = exec (.decode b) { s with pass := .atDeq, turns := ts }) ∧
    (∀ ts, s.turns = .pass :: ts → s.pass = .atDeq → step s = exec .drain { s with pass := .idle, turns := ts })

/-- 44_drain_and_boundary.md R200 and R201 (R201 is an inference the spec marks as its own): a pass that no other agent
interrupts decodes exactly the bytes the consumer can see, at most C, in order, as direct DECODE would, and ends after one
DEQ more than bytes. The count of the model's steps after the first rests on log 8. -/
def Obligations.DrainDecodesEverythingVisible : Prop :=
  ∀ s : State, FifoInv s → FramerInv s → s.pass = .idle → s.turns = [] →
    lenC s ≤ 2 ^ s.cfg.k ∧
    ∃ s' t u, exec .drain s = .next s' ∧ Host.Core.run Sys2Proof.core (2 * lenC s) s' = .next t ∧
      performAll ((visible s).map Instr.decode) s = .next u ∧ (visible s).length = lenC s ∧
      FramerSame u t ∧ t.events = u.events ∧ t.pass = .idle ∧ t.out.ret = .drainDone ∧
      t.rdIdx = s.wrView ∧ t.mem = s.mem ∧ t.wrIdx = s.wrIdx ∧ t.wrView = s.wrView ∧ t.dropCount = s.dropCount

/-- 44_drain_and_boundary.md R204: CONFIGURE_LINE reads and writes no element of the hardware, whatever the line speed. That
it is a step at all, one that changes nothing, is the model's choice between the two meanings R204 offers (log 19). -/
def Obligations.ConfigureLineChangesNothing : Prop :=
  ∀ (r : Nat) (s : State), exec (.configureLine r) s = .next { s with out := { ret := .none, evt := none } }

/-- 10_state.md R39 (the views are decision D5): apart from RESET every element is written by the operations of one agent
only: `mem`, `wr_idx` and `drop_count` by the producer, `rd_idx` and the framer by the consumer, each view by SYNC, and in
EXACT mode together with its index; the parameters and the turns by none. -/
def Obligations.EachElementHasOneWriter : Prop :=
  ∀ (i : Instr) (s t : State), i ≠ .reset → exec i s = .next t →
    (i.agent ≠ .producer → t.mem = s.mem ∧ t.wrIdx = s.wrIdx ∧ t.dropCount = s.dropCount) ∧
    (i.agent ≠ .consumer → t.rdIdx = s.rdIdx ∧ FramerSame s t ∧ t.pass = s.pass ∧ t.events = s.events) ∧
    (i.agent ≠ .sync → s.cfg.syncMode = .lagged → t.wrView = s.wrView ∧ t.rdView = s.rdView) ∧
    (i.agent ≠ .sync → i.agent ≠ .producer → t.wrView = s.wrView) ∧
    (i.agent ≠ .sync → i.agent ≠ .consumer → t.rdView = s.rdView) ∧
    t.cfg = s.cfg ∧ t.turns = s.turns ∧ t.epoch = s.epoch

/-- 60_exceptions.md R229 (an inference the spec marks as its own): at most one of the four error conditions applies to
one operation, and each only to its own kind: OVF to ENQ, ABANDON to a status byte, STRAY and XCAP to a data byte. That
ABANDON applies to a second status byte in a row too is the model's choice between R224 and R226 (log 24). -/
def Obligations.AtMostOneErrorCondition : Prop :=
  ∀ (i : Instr) (s : State),
    (errorConditions i s).length ≤ 1 ∧
    (.ovf ∈ errorConditions i s ↔ (∃ b, i = .enq b) ∧ fullP s = true) ∧
    (.abandon ∈ errorConditions i s ↔
      (∃ b, (i = .decode b ∨ i = decodeByte b) ∧ isStatus b = true) ∧ s.cur ≠ .unset ∧ s.cur ≠ .extended ∧ 0 < s.rem) ∧
    (.stray ∈ errorConditions i s ↔
      (∃ b, (i = .decode b ∨ i = decodeByte b) ∧ isStatus b = false) ∧ s.rem = 0 ∧ s.cur ≠ .extended) ∧
    (.xcap ∈ errorConditions i s ↔
      (∃ b, (i = .decode b ∨ i = decodeByte b) ∧ isStatus b = false) ∧ s.rem = 0 ∧ s.cur = .extended)

/-- A step runs the decoded operation (30_encoding.md section 5, 44_drain_and_boundary.md section 2; the turns are the
model's own, log 2 and log 3): a byte handed to the framer, a call by the operation's own agent, the two entry points, a
strobe, the word of the opcode table, and no turn at all. -/
def Obligations.StepRunsTheTurnsOperation : Prop :=
  ∀ (s : State) (ts : List Turn),
    (∀ b, s.turns = .byte b :: ts → s.pass = .idle → step s = exec (decodeByte b) { s with turns := ts }) ∧
    (∀ i, s.turns = .call i.agent i :: ts → s.pass = .idle ∨ occupiesConsumer i = false →
      step s = exec i { s with turns := ts }) ∧
    (s.turns = .drainAndDispatch :: ts → step s = exec .drain { s with turns := ts }) ∧
    (∀ b, s.turns = .onByteReceived b :: ts → ∃ t, exec (.enq b) { s with turns := ts } = .next t ∧
      step s = .next { t with out := { t.out with ret := .none } }) ∧
    (∀ i p f, encodePorts i = some p → s.turns = .pins p f :: ts → s.pass = .idle →
      step s = exec i { s with turns := ts }) ∧
    (∀ w i, decodeTableWord 8 w = some i → step (s.withFetchWord 8 w) = exec i { s with pass := .idle }) ∧
    (s.turns = [] → s.pass = .idle → step s = .next { s with out := { ret := .none, evt := none } })

/-- 20_memory.md R80 and 60_exceptions.md R228 at the ports (that the environment orders two strobes raised together is
the model's choice, log 12): they are two steps, in the order the turn gives. -/
def Obligations.StrobesRaisedTogetherAreTwoSteps : Prop :=
  ∀ (s : State) (ts : List Turn) (b : Byte), s.pass = .idle →
    (s.turns = .pins { enqValid := true, enqData := b, deqReq := true } true :: ts →
      step s = exec (.enq b) { s with turns := .call .consumer .deq :: ts }) ∧
    (s.turns = .pins { enqValid := true, enqData := b, deqReq := true } false :: ts →
      step s = exec .deq { s with turns := .call .producer (.enq b) :: ts })

/-- 60_exceptions.md R234, 70_reset_and_hazards.md R251 and R256, 93_implementation_defined.md U3 and U8 (log 9, log 12):
when the model gives a request no meaning. -/
def Obligations.BreachesOfContractAreRefused : Prop :=
  ∀ (s : State) (ts : List Turn),
    (∀ a i, s.turns = .call a i :: ts → a ≠ i.agent → step s = .refused (.wrongContext a)) ∧
    (∀ i, s.turns = .call i.agent i :: ts → s.pass ≠ .idle → occupiesConsumer i = true →
      step s = .refused .consumerBusy) ∧
    (s.turns = .call .consumer .drain :: ts → s.pass ≠ .idle → step s = .refused .drainNotReentrant) ∧
    (∀ p f, s.turns = .pins p f :: ts → p.rst = true →
      p.enqValid = true ∨ p.deqReq = true ∨ p.decValid = true ∨ p.drainReq = true →
      step s = .refused .resetNotAlone) ∧
    (∀ p f, s.turns = .pins p f :: ts → p.rst = false →
      (p.deqReq = true ∧ p.decValid = true) ∨ (p.deqReq = true ∧ p.drainReq = true) ∨
        (p.decValid = true ∧ p.drainReq = true) →
      step s = .refused .twoConsumerRequests)

/-! ### Progress -/

/-- 20_memory.md R71 (e) and 40_fifo_ops.md R124, R125 (decision D5), 44_drain_and_boundary.md R201 (an inference the spec
marks as its own; 93_implementation_defined.md U9, U10), over unending executions without RESET (log 17): in LAGGED mode, if
the SYNC agent is treated fairly, every index value is seen by the other side after finitely many steps: the view goes forward
by at least as much as it was behind. In EXACT mode it is seen at once. And if the consumer is treated fairly, a pass ends
once no more bytes are accepted. -/
def Obligations.FairExecutionsSeeEveryIndexAndEndPasses : Prop :=
  ∀ (run : Nat → State) (act : Nat → Action),
    IsExecution run act → FifoInv (run 0) → (∀ n, act n ≠ .perform .reset) →
    ((run 0).cfg.syncMode = .lagged → SyncFair run act → ∀ n,
      (∃ k, idxDist (run n).cfg (run n).wrView (run n).wrIdx ≤
        advanceIn (run n).cfg (fun j => (run j).wrView) n k) ∧
      (∃ k, idxDist (run n).cfg (run n).rdView (run n).rdIdx ≤
        advanceIn (run n).cfg (fun j => (run j).rdView) n k)) ∧
    ((run 0).cfg.syncMode = .exact → ∀ n, (run n).wrView = (run n).wrIdx ∧ (run n).rdView = (run n).rdIdx) ∧
    (PassFair run act → ∀ n, (∀ m, n ≤ m → (run m).wrIdx = (run n).wrIdx) → ∃ m, n ≤ m ∧ (run m).pass = .idle)
end

