-- ==== Sys2Proof/Laws/State.lean ====
section
/-! SUPPORT. One lemma per field per named update of State, true by definition, so that no proof unfolds an update. -/

namespace Sys2Proof.Machine

/-! ### pushByte -/

@[simp] theorem State.pushByte_cfg (s : State) (b : Byte) : (s.pushByte b).cfg = s.cfg := rfl
@[simp] theorem State.pushByte_mem (s : State) (b : Byte) : (s.pushByte b).mem = s.mem.write (slot s.cfg s.wrIdx) b := rfl
@[simp] theorem State.pushByte_wrIdx (s : State) (b : Byte) : (s.pushByte b).wrIdx = inc s.cfg s.wrIdx := rfl
@[simp] theorem State.pushByte_rdIdx (s : State) (b : Byte) : (s.pushByte b).rdIdx = s.rdIdx := rfl
@[simp] theorem State.pushByte_wrView (s : State) (b : Byte) : (s.pushByte b).wrView = if s.cfg.syncMode = .exact then inc s.cfg s.wrIdx else s.wrView := rfl
@[simp] theorem State.pushByte_rdView (s : State) (b : Byte) : (s.pushByte b).rdView = s.rdView := rfl
@[simp] theorem State.pushByte_dropCount (s : State) (b : Byte) : (s.pushByte b).dropCount = s.dropCount := rfl
@[simp] theorem State.pushByte_cur (s : State) (b : Byte) : (s.pushByte b).cur = s.cur := rfl
@[simp] theorem State.pushByte_chan (s : State) (b : Byte) : (s.pushByte b).chan = s.chan := rfl
@[simp] theorem State.pushByte_rem (s : State) (b : Byte) : (s.pushByte b).rem = s.rem := rfl
@[simp] theorem State.pushByte_pay (s : State) (b : Byte) : (s.pushByte b).pay = s.pay := rfl
@[simp] theorem State.pushByte_widx (s : State) (b : Byte) : (s.pushByte b).widx = s.widx := rfl
@[simp] theorem State.pushByte_pass (s : State) (b : Byte) : (s.pushByte b).pass = s.pass := rfl
@[simp] theorem State.pushByte_events (s : State) (b : Byte) : (s.pushByte b).events = s.events := rfl
@[simp] theorem State.pushByte_out (s : State) (b : Byte) : (s.pushByte b).out = s.out := rfl
@[simp] theorem State.pushByte_turns (s : State) (b : Byte) : (s.pushByte b).turns = s.turns := rfl
@[simp] theorem State.pushByte_epoch (s : State) (b : Byte) : (s.pushByte b).epoch = s.epoch := rfl

/-! ### countDrop -/

@[simp] theorem State.countDrop_cfg (s : State) : (s.countDrop).cfg = s.cfg := rfl
@[simp] theorem State.countDrop_mem (s : State) : (s.countDrop).mem = s.mem := rfl
@[simp] theorem State.countDrop_wrIdx (s : State) : (s.countDrop).wrIdx = s.wrIdx := rfl
@[simp] theorem State.countDrop_rdIdx (s : State) : (s.countDrop).rdIdx = s.rdIdx := rfl
@[simp] theorem State.countDrop_wrView (s : State) : (s.countDrop).wrView = s.wrView := rfl
@[simp] theorem State.countDrop_rdView (s : State) : (s.countDrop).rdView = s.rdView := rfl
@[simp] theorem State.countDrop_dropCount (s : State) : (s.countDrop).dropCount = satInc s.cfg.dropW s.dropCount := rfl
@[simp] theorem State.countDrop_cur (s : State) : (s.countDrop).cur = s.cur := rfl
@[simp] theorem State.countDrop_chan (s : State) : (s.countDrop).chan = s.chan := rfl
@[simp] theorem State.countDrop_rem (s : State) : (s.countDrop).rem = s.rem := rfl
@[simp] theorem State.countDrop_pay (s : State) : (s.countDrop).pay = s.pay := rfl
@[simp] theorem State.countDrop_widx (s : State) : (s.countDrop).widx = s.widx := rfl
@[simp] theorem State.countDrop_pass (s : State) : (s.countDrop).pass = s.pass := rfl
@[simp] theorem State.countDrop_events (s : State) : (s.countDrop).events = s.events := rfl
@[simp] theorem State.countDrop_out (s : State) : (s.countDrop).out = s.out := rfl
@[simp] theorem State.countDrop_turns (s : State) : (s.countDrop).turns = s.turns := rfl
@[simp] theorem State.countDrop_epoch (s : State) : (s.countDrop).epoch = s.epoch := rfl

/-! ### popByte -/

@[simp] theorem State.popByte_cfg (s : State) : (s.popByte).cfg = s.cfg := rfl
@[simp] theorem State.popByte_mem (s : State) : (s.popByte).mem = s.mem := rfl
@[simp] theorem State.popByte_wrIdx (s : State) : (s.popByte).wrIdx = s.wrIdx := rfl
@[simp] theorem State.popByte_rdIdx (s : State) : (s.popByte).rdIdx = inc s.cfg s.rdIdx := rfl
@[simp] theorem State.popByte_wrView (s : State) : (s.popByte).wrView = s.wrView := rfl
@[simp] theorem State.popByte_rdView (s : State) : (s.popByte).rdView = if s.cfg.syncMode = .exact then inc s.cfg s.rdIdx else s.rdView := rfl
@[simp] theorem State.popByte_dropCount (s : State) : (s.popByte).dropCount = s.dropCount := rfl
@[simp] theorem State.popByte_cur (s : State) : (s.popByte).cur = s.cur := rfl
@[simp] theorem State.popByte_chan (s : State) : (s.popByte).chan = s.chan := rfl
@[simp] theorem State.popByte_rem (s : State) : (s.popByte).rem = s.rem := rfl
@[simp] theorem State.popByte_pay (s : State) : (s.popByte).pay = s.pay := rfl
@[simp] theorem State.popByte_widx (s : State) : (s.popByte).widx = s.widx := rfl
@[simp] theorem State.popByte_pass (s : State) : (s.popByte).pass = s.pass := rfl
@[simp] theorem State.popByte_events (s : State) : (s.popByte).events = s.events := rfl
@[simp] theorem State.popByte_out (s : State) : (s.popByte).out = s.out := rfl
@[simp] theorem State.popByte_turns (s : State) : (s.popByte).turns = s.turns := rfl
@[simp] theorem State.popByte_epoch (s : State) : (s.popByte).epoch = s.epoch := rfl

/-! ### classify -/

@[simp] theorem State.classify_cfg (s : State) (k : MsgClass) (c : Chan) (n : Nat) : (s.classify k c n).cfg = s.cfg := rfl
@[simp] theorem State.classify_mem (s : State) (k : MsgClass) (c : Chan) (n : Nat) : (s.classify k c n).mem = s.mem := rfl
@[simp] theorem State.classify_wrIdx (s : State) (k : MsgClass) (c : Chan) (n : Nat) : (s.classify k c n).wrIdx = s.wrIdx := rfl
@[simp] theorem State.classify_rdIdx (s : State) (k : MsgClass) (c : Chan) (n : Nat) : (s.classify k c n).rdIdx = s.rdIdx := rfl
@[simp] theorem State.classify_wrView (s : State) (k : MsgClass) (c : Chan) (n : Nat) : (s.classify k c n).wrView = s.wrView := rfl
@[simp] theorem State.classify_rdView (s : State) (k : MsgClass) (c : Chan) (n : Nat) : (s.classify k c n).rdView = s.rdView := rfl
@[simp] theorem State.classify_dropCount (s : State) (k : MsgClass) (c : Chan) (n : Nat) : (s.classify k c n).dropCount = s.dropCount := rfl
@[simp] theorem State.classify_cur (s : State) (k : MsgClass) (c : Chan) (n : Nat) : (s.classify k c n).cur = k := rfl
@[simp] theorem State.classify_chan (s : State) (k : MsgClass) (c : Chan) (n : Nat) : (s.classify k c n).chan = c := rfl
@[simp] theorem State.classify_rem (s : State) (k : MsgClass) (c : Chan) (n : Nat) : (s.classify k c n).rem = n := rfl
@[simp] theorem State.classify_pay (s : State) (k : MsgClass) (c : Chan) (n : Nat) : (s.classify k c n).pay = s.pay := rfl
@[simp] theorem State.classify_widx (s : State) (k : MsgClass) (c : Chan) (n : Nat) : (s.classify k c n).widx = 0 := rfl
@[simp] theorem State.classify_pass (s : State) (k : MsgClass) (c : Chan) (n : Nat) : (s.classify k c n).pass = s.pass := rfl
@[simp] theorem State.classify_events (s : State) (k : MsgClass) (c : Chan) (n : Nat) : (s.classify k c n).events = s.events := rfl
@[simp] theorem State.classify_out (s : State) (k : MsgClass) (c : Chan) (n : Nat) : (s.classify k c n).out = s.out := rfl
@[simp] theorem State.classify_turns (s : State) (k : MsgClass) (c : Chan) (n : Nat) : (s.classify k c n).turns = s.turns := rfl
@[simp] theorem State.classify_epoch (s : State) (k : MsgClass) (c : Chan) (n : Nat) : (s.classify k c n).epoch = s.epoch := rfl

/-! ### acceptData -/

@[simp] theorem State.acceptData_cfg (s : State) (b : Byte) : (s.acceptData b).cfg = s.cfg := rfl
@[simp] theorem State.acceptData_mem (s : State) (b : Byte) : (s.acceptData b).mem = s.mem := rfl
@[simp] theorem State.acceptData_wrIdx (s : State) (b : Byte) : (s.acceptData b).wrIdx = s.wrIdx := rfl
@[simp] theorem State.acceptData_rdIdx (s : State) (b : Byte) : (s.acceptData b).rdIdx = s.rdIdx := rfl
@[simp] theorem State.acceptData_wrView (s : State) (b : Byte) : (s.acceptData b).wrView = s.wrView := rfl
@[simp] theorem State.acceptData_rdView (s : State) (b : Byte) : (s.acceptData b).rdView = s.rdView := rfl
@[simp] theorem State.acceptData_dropCount (s : State) (b : Byte) : (s.acceptData b).dropCount = s.dropCount := rfl
@[simp] theorem State.acceptData_cur (s : State) (b : Byte) : (s.acceptData b).cur = s.cur := rfl
@[simp] theorem State.acceptData_chan (s : State) (b : Byte) : (s.acceptData b).chan = s.chan := rfl
@[simp] theorem State.acceptData_rem (s : State) (b : Byte) : (s.acceptData b).rem = s.rem - 1 := rfl
@[simp] theorem State.acceptData_pay (s : State) (b : Byte) : (s.acceptData b).pay = s.pay.write s.widx b := rfl
@[simp] theorem State.acceptData_widx (s : State) (b : Byte) : (s.acceptData b).widx = s.widx + 1 := rfl
@[simp] theorem State.acceptData_pass (s : State) (b : Byte) : (s.acceptData b).pass = s.pass := rfl
@[simp] theorem State.acceptData_events (s : State) (b : Byte) : (s.acceptData b).events = s.events := rfl
@[simp] theorem State.acceptData_out (s : State) (b : Byte) : (s.acceptData b).out = s.out := rfl
@[simp] theorem State.acceptData_turns (s : State) (b : Byte) : (s.acceptData b).turns = s.turns := rfl
@[simp] theorem State.acceptData_epoch (s : State) (b : Byte) : (s.acceptData b).epoch = s.epoch := rfl

/-! ### setPass -/

@[simp] theorem State.setPass_cfg (s : State) (p : Pass) : (s.setPass p).cfg = s.cfg := rfl
@[simp] theorem State.setPass_mem (s : State) (p : Pass) : (s.setPass p).mem = s.mem := rfl
@[simp] theorem State.setPass_wrIdx (s : State) (p : Pass) : (s.setPass p).wrIdx = s.wrIdx := rfl
@[simp] theorem State.setPass_rdIdx (s : State) (p : Pass) : (s.setPass p).rdIdx = s.rdIdx := rfl
@[simp] theorem State.setPass_wrView (s : State) (p : Pass) : (s.setPass p).wrView = s.wrView := rfl
@[simp] theorem State.setPass_rdView (s : State) (p : Pass) : (s.setPass p).rdView = s.rdView := rfl
@[simp] theorem State.setPass_dropCount (s : State) (p : Pass) : (s.setPass p).dropCount = s.dropCount := rfl
@[simp] theorem State.setPass_cur (s : State) (p : Pass) : (s.setPass p).cur = s.cur := rfl
@[simp] theorem State.setPass_chan (s : State) (p : Pass) : (s.setPass p).chan = s.chan := rfl
@[simp] theorem State.setPass_rem (s : State) (p : Pass) : (s.setPass p).rem = s.rem := rfl
@[simp] theorem State.setPass_pay (s : State) (p : Pass) : (s.setPass p).pay = s.pay := rfl
@[simp] theorem State.setPass_widx (s : State) (p : Pass) : (s.setPass p).widx = s.widx := rfl
@[simp] theorem State.setPass_pass (s : State) (p : Pass) : (s.setPass p).pass = p := rfl
@[simp] theorem State.setPass_events (s : State) (p : Pass) : (s.setPass p).events = s.events := rfl
@[simp] theorem State.setPass_out (s : State) (p : Pass) : (s.setPass p).out = s.out := rfl
@[simp] theorem State.setPass_turns (s : State) (p : Pass) : (s.setPass p).turns = s.turns := rfl
@[simp] theorem State.setPass_epoch (s : State) (p : Pass) : (s.setPass p).epoch = s.epoch := rfl

/-! ### finish -/

@[simp] theorem State.finish_cfg (s : State) (r : Ret) (e : Option Event) : (s.finish r e).cfg = s.cfg := rfl
@[simp] theorem State.finish_mem (s : State) (r : Ret) (e : Option Event) : (s.finish r e).mem = s.mem := rfl
@[simp] theorem State.finish_wrIdx (s : State) (r : Ret) (e : Option Event) : (s.finish r e).wrIdx = s.wrIdx := rfl
@[simp] theorem State.finish_rdIdx (s : State) (r : Ret) (e : Option Event) : (s.finish r e).rdIdx = s.rdIdx := rfl
@[simp] theorem State.finish_wrView (s : State) (r : Ret) (e : Option Event) : (s.finish r e).wrView = s.wrView := rfl
@[simp] theorem State.finish_rdView (s : State) (r : Ret) (e : Option Event) : (s.finish r e).rdView = s.rdView := rfl
@[simp] theorem State.finish_dropCount (s : State) (r : Ret) (e : Option Event) : (s.finish r e).dropCount = s.dropCount := rfl
@[simp] theorem State.finish_cur (s : State) (r : Ret) (e : Option Event) : (s.finish r e).cur = s.cur := rfl
@[simp] theorem State.finish_chan (s : State) (r : Ret) (e : Option Event) : (s.finish r e).chan = s.chan := rfl
@[simp] theorem State.finish_rem (s : State) (r : Ret) (e : Option Event) : (s.finish r e).rem = s.rem := rfl
@[simp] theorem State.finish_pay (s : State) (r : Ret) (e : Option Event) : (s.finish r e).pay = s.pay := rfl
@[simp] theorem State.finish_widx (s : State) (r : Ret) (e : Option Event) : (s.finish r e).widx = s.widx := rfl
@[simp] theorem State.finish_pass (s : State) (r : Ret) (e : Option Event) : (s.finish r e).pass = s.pass := rfl
@[simp] theorem State.finish_events (s : State) (r : Ret) (e : Option Event) : (s.finish r e).events = s.events ++ e.toList := rfl
@[simp] theorem State.finish_out (s : State) (r : Ret) (e : Option Event) : (s.finish r e).out = { ret := r, evt := e } := rfl
@[simp] theorem State.finish_turns (s : State) (r : Ret) (e : Option Event) : (s.finish r e).turns = s.turns := rfl
@[simp] theorem State.finish_epoch (s : State) (r : Ret) (e : Option Event) : (s.finish r e).epoch = s.epoch := rfl

end Sys2Proof.Machine
end

