-- ==== Sys2Proof/Laws/Ops.lean ====
section
/-! SUPPORT. What the shared operations do: byte arrays, index arithmetic, and the fields of a byte. -/

namespace Sys2Proof.Machine

/-! ### Byte arrays -/

@[simp] theorem Memory.read_nil (x : Nat) : Memory.read [] x = none := rfl

/-- A read after a write to the same cell gives the value written; every other cell reads as before. -/
theorem Memory.read_write (m : Memory) (x y : Nat) (v : Byte) :
    (m.write x v).read y = if y = x then some v else m.read y := by
  induction m with
  | nil => by_cases h : y = x <;> simp [Memory.write, Memory.read, h, Memory.unlisted]
  | cons p m ih =>
    obtain ⟨a, b⟩ := p
    unfold Memory.write
    split
    · by_cases h : y = x <;> simp [Memory.read, h]
    · split
      · subst x
        by_cases h : y = a <;> simp [Memory.read, h]
      · by_cases h : y = a
        · subst y
          have : a ≠ x := fun h => by omega
          simp [Memory.read, this]
        · simp [Memory.read, h, ih]

@[simp] theorem Memory.read_write_same (m : Memory) (x : Nat) (v : Byte) : (m.write x v).read x = some v := by
  simp [Memory.read_write]

theorem Memory.read_write_other (m : Memory) {x y : Nat} (v : Byte) (h : y ≠ x) :
    (m.write x v).read y = m.read y := by
  simp [Memory.read_write, h]

/-- A cell listed after a write is the cell written or was listed before. -/
theorem Memory.mem_write {m : Memory} {x : Nat} {v : Byte} {p : Host.Cell} (h : p ∈ m.write x v) :
    p = (x, v) ∨ p ∈ m := by
  induction m with
  | nil => simpa [Memory.write] using h
  | cons q m ih =>
    obtain ⟨a, b⟩ := q
    unfold Memory.write at h
    split at h
    · simpa using h
    · split at h <;> rcases List.mem_cons.1 h with h | h
      · exact .inl h
      · exact .inr (List.mem_cons_of_mem _ h)
      · exact .inr (h ▸ List.mem_cons_self)
      · exact (ih h).imp_right (List.mem_cons_of_mem _)

/-- A write keeps the canonical form. -/
theorem Memory.write_wf {m : Memory} (x : Nat) (v : Byte) (h : m.wf) : (m.write x v).wf := by
  induction m with
  | nil => simp [Memory.write, Memory.wf]
  | cons q m ih =>
    obtain ⟨a, b⟩ := q
    obtain ⟨hlow, hm⟩ := List.pairwise_cons.1 h
    unfold Memory.write
    split
    · refine List.pairwise_cons.2 ⟨fun p hp => ?_, h⟩
      rcases List.mem_cons.1 hp with rfl | hp
      · assumption
      · have := hlow p hp
        dsimp only at this ⊢
        omega
    · split
      · subst x
        exact List.pairwise_cons.2 ⟨hlow, hm⟩
      · refine List.pairwise_cons.2 ⟨fun p hp => ?_, ih hm⟩
        rcases Memory.mem_write hp with rfl | hp
        · dsimp only
          omega
        · exact hlow p hp

/-- A cell that reads as a byte is listed with it. -/
theorem Memory.mem_of_read {m : Memory} {x : Nat} {v : Byte} (h : m.read x = some v) : (x, v) ∈ m := by
  induction m with
  | nil => simp [Memory.read, Memory.unlisted] at h
  | cons q m ih =>
    obtain ⟨a, b⟩ := q
    unfold Memory.read at h
    split at h
    · rename_i hx
      obtain rfl : b = v := by simpa using h
      simp [hx]
    · exact List.mem_cons_of_mem _ (ih h)

/-- `payByte` after an accepted data byte. -/
theorem payByte_acceptData (s : State) (b : Byte) (j : Nat) :
    payByte (s.acceptData b) j = if j = s.widx then b else payByte s j := by
  by_cases h : j = s.widx <;> simp [payByte, Memory.read_write, h]

/-! ### Index arithmetic -/

theorem cap_pos (c : Config) : 0 < c.cap := Nat.two_pow_pos _

theorem modulus_eq (c : Config) : c.modulus = c.cap + c.cap := by
  unfold Config.modulus
  omega

theorem modulus_pos (c : Config) : 0 < c.modulus := by
  have := cap_pos c
  have := modulus_eq c
  omega

/-- `inc` without the remainder. -/
theorem inc_eq (c : Config) {i : Nat} (h : i < c.modulus) :
    inc c i = if i + 1 = c.modulus then 0 else i + 1 := by
  unfold inc
  split
  · rename_i h'
    rw [h', Nat.mod_self]
  · exact Nat.mod_eq_of_lt (by omega)

theorem inc_lt (c : Config) (i : Nat) : inc c i < c.modulus := Nat.mod_lt _ (modulus_pos c)

/-- `idxDist` without the remainder. -/
theorem idxDist_eq (c : Config) {a b : Nat} (ha : a < c.modulus) (hb : b < c.modulus) :
    idxDist c a b = if a ≤ b then b - a else b + c.modulus - a := by
  unfold idxDist
  rw [Nat.mod_eq_of_lt ha]
  split
  · rw [show b + (c.modulus - a) = (b - a) + c.modulus by omega, Nat.add_mod_right]
    exact Nat.mod_eq_of_lt (by omega)
  · rw [Nat.mod_eq_of_lt (by omega)]
    omega

theorem idxDist_lt (c : Config) (a b : Nat) : idxDist c a b < c.modulus := Nat.mod_lt _ (modulus_pos c)

/-- `slot` without the remainder. -/
theorem slot_eq (c : Config) {i : Nat} (h : i < c.modulus) :
    slot c i = if i < c.cap then i else i - c.cap := by
  have := modulus_eq c
  unfold slot
  split
  · exact Nat.mod_eq_of_lt ‹_›
  · rw [Nat.mod_eq_sub_mod (by omega)]
    exact Nat.mod_eq_of_lt (by omega)

theorem slot_lt (c : Config) (i : Nat) : slot c i < c.cap := Nat.mod_lt _ (cap_pos c)

/-- Going `n` on from an index, without the remainder. -/
theorem ahead_eq (c : Config) {i n : Nat} (hi : i < c.modulus) (hn : n ≤ c.modulus) :
    (i + n) % c.modulus = if i + n < c.modulus then i + n else i + n - c.modulus := by
  split
  · exact Nat.mod_eq_of_lt ‹_›
  · rw [Nat.mod_eq_sub_mod (by omega)]
    exact Nat.mod_eq_of_lt (by omega)

/-! The same as cases that linear arithmetic takes apart. -/

theorem inc_cases (c : Config) {i : Nat} (h : i < c.modulus) :
    (i + 1 < c.modulus ∧ inc c i = i + 1) ∨ (i + 1 = c.modulus ∧ inc c i = 0) := by
  rw [inc_eq c h]
  split <;> omega

theorem idxDist_cases (c : Config) {a b : Nat} (ha : a < c.modulus) (hb : b < c.modulus) :
    (a ≤ b ∧ idxDist c a b + a = b) ∨ (b < a ∧ idxDist c a b + a = b + c.modulus) := by
  rw [idxDist_eq c ha hb]
  split <;> omega

theorem slot_cases (c : Config) {i : Nat} (h : i < c.modulus) :
    (i < c.cap ∧ slot c i = i) ∨ (c.cap ≤ i ∧ slot c i + c.cap = i) := by
  rw [slot_eq c h]
  split <;> omega

theorem ahead_cases (c : Config) {i n : Nat} (hi : i < c.modulus) (hn : n ≤ c.modulus) :
    (i + n < c.modulus ∧ (i + n) % c.modulus = i + n) ∨
    (c.modulus ≤ i + n ∧ (i + n) % c.modulus + c.modulus = i + n) := by
  rw [ahead_eq c hi hn]
  split <;> omega

theorem ahead_lt (c : Config) (i n : Nat) : (i + n) % c.modulus < c.modulus := Nat.mod_lt _ (modulus_pos c)

theorem satInc_lt {n x : Nat} (h : x < 2 ^ n) : satInc n x < 2 ^ n := by
  unfold satInc
  split <;> omega

/-! ### Fields of a byte -/

@[simp] theorem isStatus_dataByte (d : Payload) : isStatus (dataByte d) = false := by
  revert d
  decide

@[simp] theorem payloadOf_dataByte (d : Payload) : payloadOf (dataByte d) = d := by
  revert d
  decide

@[simp] theorem isStatus_statusByte (k : BitVec 3) (c : Chan) : isStatus (statusByte k c) = true := by
  revert k c
  decide

@[simp] theorem classIndex_statusByte (k : BitVec 3) (c : Chan) : classIndex (statusByte k c) = k := by
  revert k c
  decide

@[simp] theorem channelOf_statusByte (k : BitVec 3) (c : Chan) : channelOf (statusByte k c) = c := by
  revert k c
  decide

end Sys2Proof.Machine
end

