-- ==== Sys2Proof/Laws/Exec.lean ====
section
/-! SUPPORT. Everything an operation and a step can do: one inversion lemma each, over the shared operations' own. -/

namespace Sys2Proof.Machine

/-! ### The byte steps -/

theorem statusStep_next {k : MsgClass} {c : Chan} {s : State} (h : s.cur = .extended → s.widx ≤ s.cfg.p) :
    statusStep k c s = .next ((s.classify k c (required s.cfg k)).finish .none (finalizeEvent s)) := by
  unfold statusStep
  rw [if_neg]
  rintro ⟨hc, hw⟩
  have := h hc
  omega

theorem statusStep_cases {k : MsgClass} {c : Chan} {s t : State} (h : statusStep k c s = .next t) :
    (s.cur = .extended → s.widx ≤ s.cfg.p) ∧
    t = (s.classify k c (required s.cfg k)).finish .none (finalizeEvent s) := by
  unfold statusStep at h
  split at h
  · cases h
  · rename_i hn
    refine ⟨fun hc => ?_, by simpa using h.symm⟩
    by_contra hw
    exact hn ⟨hc, by omega⟩

theorem dataStep_discards {b : Byte} {s : State} (h : s.rem = 0) : dataStep b s = .next (s.finish .none none) := by
  simp [dataStep, h]

theorem dataStep_accepts {b : Byte} {s : State} (h : s.rem ≠ 0) (hc : s.cur ≠ .unset) (hw : s.widx < s.cfg.p) :
    dataStep b s = .next ((s.acceptData b).finish .none (completionEvent (s.acceptData b))) := by
  simp [dataStep, h, hc, hw]

theorem dataStep_cases {b : Byte} {s t : State} (h : dataStep b s = .next t) :
    (s.rem = 0 ∧ t = s.finish .none none) ∨
    (s.rem ≠ 0 ∧ s.cur ≠ .unset ∧ s.widx < s.cfg.p ∧
      t = (s.acceptData b).finish .none (completionEvent (s.acceptData b))) := by
  unfold dataStep at h
  split at h
  · exact .inl ⟨‹_›, by simpa using h.symm⟩
  · split at h
    · cases h
    · split at h
      · cases h
      · exact .inr ⟨‹_›, ‹_›, by omega, by simpa using h.symm⟩

theorem decodeStep_status {b : Byte} {s : State} (h : isStatus b = true) :
    decodeStep b s = statusStep (classOfIndex (classIndex b)) (channelOf b) s := by
  simp [decodeStep, h]

theorem decodeStep_data {b : Byte} {s : State} (h : isStatus b = false) : decodeStep b s = dataStep b s := by
  simp [decodeStep, h]

theorem dataByte_payloadOf {b : Byte} (h : isStatus b = false) : dataByte (payloadOf b) = b := by
  revert b
  decide

theorem decodeByte_dataByte (d : Payload) : decodeByte (dataByte d) = .data d := by
  simp [decodeByte]

theorem decodeByte_statusByte (k : BitVec 3) (c : Chan) : decodeByte (statusByte k c) = statusRow k c := by
  simp [decodeByte]

/-- A status row's meaning is the status step of its class. -/
theorem exec_statusRow (k : BitVec 3) (c : Chan) (s : State) :
    exec (statusRow k c) s = statusStep (classOfIndex k) c s := by
  unfold statusRow classOfIndex
  split <;> rfl

/-- Running the row a byte selects is the decode step of the byte. -/
theorem exec_decodeByte (b : Byte) (s : State) : exec (decodeByte b) s = decodeStep b s := by
  by_cases h : isStatus b = true
  · rw [decodeStep_status h, decodeByte, if_pos h, exec_statusRow]
  · have h : isStatus b = false := by simpa using h
    rw [decodeStep_data h, decodeByte, if_neg (by simp [h])]
    show dataStep (dataByte (payloadOf b)) s = _
    rw [dataByte_payloadOf h]

theorem classOfIndex_ne_unset (k : BitVec 3) : classOfIndex k ≠ .unset := by
  revert k
  decide

/-! ### Everything an operation can do -/

/-- The effects an operation can have when it gives a next state. -/
inductive Effect : Instr → State → State → Prop where
  | quiet {i : Instr} {s : State} {r : Ret} (hp : i.agent ≠ .producer) (hr : i ≠ .reset)
      (hq : ∀ b, r ≠ .deqByte b ∧ r ≠ .drainByte b) : Effect i s (s.finish r none)
  | drop {s : State} {b : Byte} (hf : fullP s = true) : Effect (.enq b) s (s.countDrop.finish .enqFull none)
  | push {s : State} {b : Byte} (hf : fullP s = false) : Effect (.enq b) s ((s.pushByte b).finish .enqOk none)
  | pop {s : State} (he : emptyC s = false) :
      Effect .deq s (s.popByte.finish (.deqByte (oldestByte s)) none)
  | passPop {s : State} (hi : s.pass = .idle) (he : emptyC s = false) :
      Effect .drain s ((s.popByte.setPass (.atDecode (oldestByte s))).finish (.drainByte (oldestByte s)) none)
  | syncW {s : State} {v : Nat} (hm : s.cfg.syncMode = .lagged) (hv : v < s.cfg.modulus)
      (hd : idxDist s.cfg s.wrView v ≤ idxDist s.cfg s.wrView s.wrIdx) :
      Effect (.syncW v) s (({ s with wrView := v } : State).finish .none none)
  | syncR {s : State} {v : Nat} (hm : s.cfg.syncMode = .lagged) (hv : v < s.cfg.modulus)
      (hd : idxDist s.cfg s.rdView v ≤ idxDist s.cfg s.rdView s.rdIdx) :
      Effect (.syncR v) s (({ s with rdView := v } : State).finish .none none)
  | status {i : Instr} {s : State} {b : Byte} (hi : i = .decode b ∨ i = decodeByte b) (hb : isStatus b = true)
      (hw : s.cur = .extended → s.widx ≤ s.cfg.p) :
      Effect i s ((s.classify (classOfIndex (classIndex b)) (channelOf b)
        (required s.cfg (classOfIndex (classIndex b)))).finish .none (finalizeEvent s))
  | accept {i : Instr} {s : State} {b : Byte} (hi : i = .decode b ∨ i = decodeByte b) (hb : isStatus b = false)
      (hr : s.rem ≠ 0) (hc : s.cur ≠ .unset) (hw : s.widx < s.cfg.p) :
      Effect i s ((s.acceptData b).finish .none (completionEvent (s.acceptData b)))
  | reset {s : State} :
      Effect .reset s { State.resetWith s.cfg with turns := s.turns, epoch := s.epoch + 1 }

theorem decodeByte_agent (b : Byte) : (decodeByte b).agent = .consumer := by
  revert b
  decide

/-- A byte's decode step, as an effect of the operation that runs it. -/
theorem decodeStep_effect {i : Instr} {b : Byte} {s t : State} (hi : i = .decode b ∨ i = decodeByte b)
    (h : decodeStep b s = .next t) : Effect i s t := by
  have ha : i.agent = .consumer := by
    rcases hi with rfl | rfl
    · rfl
    · exact decodeByte_agent b
  cases hb : isStatus b
  · rw [decodeStep_data hb] at h
    rcases dataStep_cases h with ⟨-, rfl⟩ | ⟨hr, hc, hw, rfl⟩
    · exact .quiet (by simp [ha]) (by rintro rfl; cases ha) (by simp)
    · exact .accept hi hb hr hc hw
  · rw [decodeStep_status hb] at h
    obtain ⟨hw, rfl⟩ := statusStep_cases h
    exact .status hi hb hw

theorem encodeByte_decodeByte {i : Instr} {b : Byte} (h : encodeByte i = some b) : decodeByte b = i := by
  cases i <;> simp only [encodeByte, Option.some.injEq, reduceCtorEq] at h <;> subst h
  all_goals first
    | rw [decodeByte_statusByte]; rfl
    | exact decodeByte_dataByte _

/-- A byte row's meaning is the decode step of its byte. -/
theorem exec_byteRow {i : Instr} {b : Byte} (h : encodeByte i = some b) (s : State) :
    exec i s = decodeStep b s := by
  rw [← exec_decodeByte, encodeByte_decodeByte h]

/-- Without an `empty`, `syncReaches` unfolded. -/
theorem syncReaches_iff {c : Config} {view idx v : Nat} :
    syncReaches c view idx v = true ↔ v < c.modulus ∧ idxDist c view v ≤ idxDist c view idx := by
  simp [syncReaches]

/-- Everything an operation can do when it gives a next state. -/
theorem exec_effect {i : Instr} {s t : State} (h : exec i s = .next t) : Effect i s t := by
  have row : ∀ b, encodeByte i = some b → Effect i s t := fun b hb =>
    decodeStep_effect (.inr (encodeByte_decodeByte hb).symm) (exec_byteRow hb s ▸ h)
  cases i with
  | stNoteOff c => exact row _ rfl
  | stNoteOn c => exact row _ rfl
  | stPolyPressure c => exact row _ rfl
  | stControlChange c => exact row _ rfl
  | stProgramChange c => exact row _ rfl
  | stChannelPressure c => exact row _ rfl
  | stPitchBend c => exact row _ rfl
  | stExtended c => exact row _ rfl
  | data d => exact row _ rfl
  | enq b =>
    simp only [exec, execEnq] at h
    split at h <;> obtain rfl := Host.Outcome.next.inj h
    · exact .drop ‹_›
    · exact .push (Bool.eq_false_iff.2 ‹¬_›)
  | deq =>
    simp only [exec, execDeq] at h
    split at h <;> obtain rfl := Host.Outcome.next.inj h
    · exact .quiet (by decide) (by simp) (by simp)
    · exact .pop (Bool.eq_false_iff.2 ‹¬_›)
  | len =>
    obtain rfl := Host.Outcome.next.inj h
    exact .quiet (by decide) (by simp) (by simp)
  | empty =>
    obtain rfl := Host.Outcome.next.inj h
    exact .quiet (by decide) (by simp) (by simp)
  | syncW v =>
    simp only [exec, execSyncW] at h
    split at h
    · cases h
    · rename_i hm
      split at h
      · obtain ⟨hv, hd⟩ := syncReaches_iff.1 ‹_›
        obtain rfl := Host.Outcome.next.inj h
        exact .syncW (by cases hs : s.cfg.syncMode <;> simp_all) hv hd
      · cases h
  | syncR v =>
    simp only [exec, execSyncR] at h
    split at h
    · cases h
    · rename_i hm
      split at h
      · obtain ⟨hv, hd⟩ := syncReaches_iff.1 ‹_›
        obtain rfl := Host.Outcome.next.inj h
        exact .syncR (by cases hs : s.cfg.syncMode <;> simp_all) hv hd
      · cases h
  | decode b => exact decodeStep_effect (.inl rfl) h
  | drain =>
    simp only [exec, execDrain] at h
    split at h
    · rename_i hp
      unfold passDeq at h
      split at h <;> obtain rfl := Host.Outcome.next.inj h
      · have : s.setPass .idle = s := by cases s; simp_all [State.setPass]
        rw [this]
        exact .quiet (by decide) (by simp) (by simp)
      · exact .passPop hp (Bool.eq_false_iff.2 ‹¬_›)
    · cases h
    · cases h
  | reset =>
    obtain rfl := Host.Outcome.next.inj h
    exact .reset
  | configureLine r =>
    obtain rfl := Host.Outcome.next.inj h
    exact .quiet (by simp [Instr.agent]) (by simp) (by simp)

/-! ### Everything a step can do -/

/-- A drain pass's `DEQ` is the `DRAIN` of a consumer that starts a pass. -/
theorem passDeq_eq_exec (s : State) : passDeq s = exec .drain { s with pass := .idle } := rfl

/-- A drain pass's `DECODE` is the direct one, with the pass back before its `DEQ`. -/
theorem passDecode_eq_exec (b : Byte) (s : State) : passDecode b s = exec (.decode b) { s with pass := .atDeq } := rfl

/-- What `fetch` can answer: the state with its turns (and nothing else) changed. -/
theorem fetch_state (s : State) : ∃ ts, (fetch s).2 = { s with turns := ts } := by
  unfold fetch
  split <;> simp only [fetchPass, fetchCall, fetchPins]
  · split
    · exact ⟨s.turns, rfl⟩
    · exact ⟨s.turns, rfl⟩
  · split <;> exact ⟨_, rfl⟩
  · split <;> exact ⟨_, rfl⟩
  · exact ⟨_, rfl⟩
  · split <;> exact ⟨_, rfl⟩
  · split
    · exact ⟨_, rfl⟩
    · exact ⟨_, rfl⟩
    · split <;> exact ⟨_, rfl⟩
  · split <;> exact ⟨_, rfl⟩

/-- What the two states of a step have to do with each other, by what `fetch` answers. -/
theorem step_action {s t : State} (h : step s = .next t) :
    ∃ ts, match (fetch s).1 with
      | .rest => t = ({ s with turns := ts } : State).finish .none none
      | .passStep => passStep { s with turns := ts } = .next t
      | .perform i => exec i { s with turns := ts } = .next t
      | .performQuietly i => ∃ u, exec i { s with turns := ts } = .next u ∧
          t = { u with out := { u.out with ret := .none } }
      | .refuse _ => False := by
  obtain ⟨ts, hts⟩ := fetch_state s
  refine ⟨ts, ?_⟩
  unfold step at h
  split at h <;> rename_i s' hf <;> rw [hf] at hts ⊢ <;> simp only at hts <;> try subst hts
  · exact (Host.Outcome.next.inj h).symm
  · exact h
  · exact h
  · rename_i i
    cases hx : exec i { s with turns := ts } with
    | next u =>
      rw [hx] at h
      exact ⟨u, hx, (Host.Outcome.next.inj h).symm⟩
    | fault f => rw [hx] at h; cases h
    | refused r => rw [hx] at h; cases h
  · cases h

/-- A step of a drain pass, as the operation it is. -/
theorem passStep_cases {s t : State} (h : passStep s = .next t) :
    (s.pass = .idle ∧ t = s.finish .none none) ∨
    (s.pass = .atDeq ∧ exec .drain { s with pass := .idle } = .next t) ∨
    (∃ b, s.pass = .atDecode b ∧ exec (.decode b) { s with pass := .atDeq } = .next t) := by
  unfold passStep at h
  split at h <;> rename_i hp
  · exact .inl ⟨hp, (Host.Outcome.next.inj h).symm⟩
  · exact .inr (.inl ⟨hp, passDeq_eq_exec s ▸ h⟩)
  · exact .inr (.inr ⟨_, hp, passDecode_eq_exec _ s ▸ h⟩)

/-- Everything a step can do when it gives a next state: nothing, or one operation on the state with other turns and
another place in the drain pass; the result may then be discarded. -/
theorem step_cases {s t : State} (h : step s = .next t) :
    (∃ ts, t = ({ s with turns := ts } : State).finish .none none) ∨
    (∃ i ts p u, Effect i { s with turns := ts, pass := p } u ∧
      (t = u ∨ t = { u with out := { u.out with ret := .none } })) := by
  obtain ⟨ts, h⟩ := step_action h
  split at h
  · exact .inl ⟨ts, h⟩
  · obtain ⟨-, rfl⟩ | ⟨-, h⟩ | ⟨b, -, h⟩ := passStep_cases h
    · exact .inl ⟨ts, rfl⟩
    · exact .inr ⟨_, ts, .idle, t, exec_effect h, .inl rfl⟩
    · exact .inr ⟨_, ts, .atDeq, t, exec_effect h, .inl rfl⟩
  · exact .inr ⟨_, ts, s.pass, t, exec_effect h, .inl rfl⟩
  · obtain ⟨u, hx, rfl⟩ := h
    exact .inr ⟨_, ts, s.pass, u, exec_effect hx, .inr rfl⟩
  · exact h.elim

/-! ### Runs -/

/-- One step more of a run, by cases on its first step. -/
theorem run_succ (M : Host.Core) (n : Nat) (s : M.State) :
    (∃ u, M.step s = .next u ∧ M.run (n + 1) s = M.run n u) ∨
    (∃ f, M.step s = .fault f ∧ M.run (n + 1) s = .fault f) ∨
    (∃ r, M.step s = .refused r ∧ M.run (n + 1) s = .refused r) := by
  cases h : M.step s with
  | next u => exact .inl ⟨u, rfl, by rw [Host.Core.run, h]⟩
  | fault f => exact .inr (.inl ⟨f, rfl, by rw [Host.Core.run, h]⟩)
  | refused r => exact .inr (.inr ⟨r, rfl, by rw [Host.Core.run, h]⟩)

/-- A run of one step more, when the first step gives a next state. -/
theorem run_succ_next {n : Nat} {s t : State} (h : step s = .next t) :
    Host.Core.run Sys2Proof.core (n + 1) s = Host.Core.run Sys2Proof.core n t := by
  obtain ⟨u, hu, hr⟩ | ⟨f, hf, -⟩ | ⟨r, hr, -⟩ := run_succ Sys2Proof.core n s
  · exact hr.trans (congrArg _ (Host.Outcome.next.inj (hu.symm.trans h)))
  · exact absurd (hf.symm.trans h) (by simp)
  · exact absurd (hr.symm.trans h) (by simp)

/-- A run of one step more that ends in a next state has a first step that does. -/
theorem run_succ_cases {n : Nat} {s t : State} (h : Host.Core.run Sys2Proof.core (n + 1) s = .next t) :
    ∃ u, step s = .next u ∧ Host.Core.run Sys2Proof.core n u = .next t := by
  obtain ⟨u, hu, hr⟩ | ⟨f, -, hf⟩ | ⟨r, -, hr⟩ := run_succ Sys2Proof.core n s
  · exact ⟨u, hu, hr.symm.trans h⟩
  · exact absurd (hf.symm.trans h) (by simp)
  · exact absurd (hr.symm.trans h) (by simp)

end Sys2Proof.Machine
end

