-- ==== Sys2Proof/Laws/Fifo.lean ====
section
/-! SUPPORT. What the FIFO operations do, as equations, and what they do to the occupancy and the unread bytes. -/

namespace Sys2Proof.Machine

/-! ### The operations as equations -/

theorem exec_enq_ok {s : State} {b : Byte} (h : fullP s = false) :
    exec (.enq b) s = .next ((s.pushByte b).finish .enqOk none) := by
  simp [exec, execEnq, h]

theorem exec_enq_full {s : State} {b : Byte} (h : fullP s = true) :
    exec (.enq b) s = .next (s.countDrop.finish .enqFull none) := by
  simp [exec, execEnq, h]

theorem exec_deq_ok {s : State} (h : emptyC s = false) :
    exec .deq s = .next (s.popByte.finish (.deqByte (oldestByte s)) none) := by
  simp [exec, execDeq, h]

theorem exec_deq_empty {s : State} (h : emptyC s = true) : exec .deq s = .next (s.finish .deqEmpty none) := by
  simp [exec, execDeq, h]

theorem exec_syncW_ok {s : State} {v : Nat} (hm : s.cfg.syncMode = .lagged)
    (hr : syncReaches s.cfg s.wrView s.wrIdx v = true) :
    exec (.syncW v) s = .next (({ s with wrView := v } : State).finish .none none) := by
  simp [exec, execSyncW, hm, hr]

theorem exec_syncR_ok {s : State} {v : Nat} (hm : s.cfg.syncMode = .lagged)
    (hr : syncReaches s.cfg s.rdView s.rdIdx v = true) :
    exec (.syncR v) s = .next (({ s with rdView := v } : State).finish .none none) := by
  simp [exec, execSyncR, hm, hr]

theorem exec_drain_empty {s : State} (hp : s.pass = .idle) (h : emptyC s = true) :
    exec .drain s = .next ((s.setPass .idle).finish .drainDone none) := by
  simp [exec, execDrain, hp, passDeq, h]

theorem exec_drain_ok {s : State} (hp : s.pass = .idle) (h : emptyC s = false) :
    exec .drain s =
      .next ((s.popByte.setPass (.atDecode (oldestByte s))).finish (.drainByte (oldestByte s)) none) := by
  simp [exec, execDrain, hp, passDeq, h]

/-! ### The occupancy -/

/-- The view invariant (10_state.md R26) in four numbers: freed and unseen, visible, enqueued and unseen, the span; the
unread bytes are the second and the third together (R24). -/
theorem FifoInv.parts {s : State} (h : FifoInv s) :
    ∃ freed visible hidden span,
      idxDist s.cfg s.rdView s.rdIdx = freed ∧ idxDist s.cfg s.rdIdx s.wrView = visible ∧
      idxDist s.cfg s.wrView s.wrIdx = hidden ∧ idxDist s.cfg s.rdView s.wrIdx = span ∧
      freed + visible + hidden = span ∧ span ≤ s.cfg.cap ∧
      idxDist s.cfg s.rdIdx s.wrIdx = visible + hidden := by
  refine ⟨_, _, _, _, rfl, rfl, rfl, rfl, h.viewsInOrder, h.spanFits, ?_⟩
  have := h.viewsInOrder
  have := h.spanFits
  have := h.wrIdxInRange
  have := h.rdIdxInRange
  have := h.wrViewInRange
  have := h.rdViewInRange
  have := idxDist_cases s.cfg h.rdViewInRange h.rdIdxInRange
  have := idxDist_cases s.cfg h.rdIdxInRange h.wrViewInRange
  have := idxDist_cases s.cfg h.wrViewInRange h.wrIdxInRange
  have := idxDist_cases s.cfg h.rdViewInRange h.wrIdxInRange
  have := idxDist_cases s.cfg h.rdIdxInRange h.wrIdxInRange
  have := modulus_eq s.cfg
  have := cap_pos s.cfg
  omega

/-- EMPTY is `LEN == 0` (40_fifo_ops.md R123). -/
theorem emptyC_iff {s : State} (h : FifoInv s) : emptyC s = true ↔ lenC s = 0 := by
  have := idxDist_cases s.cfg h.rdIdxInRange h.wrViewInRange
  have := h.rdIdxInRange
  have := h.wrViewInRange
  simp only [emptyC, lenC, beq_iff_eq]
  omega

theorem lenC_popByte {s : State} (h : FifoInv s) (he : emptyC s = false) : lenC s.popByte + 1 = lenC s := by
  have := inc_cases s.cfg h.rdIdxInRange
  have hne : s.wrView ≠ s.rdIdx := by simpa [emptyC] using he
  have := h.rdIdxInRange
  have := h.wrViewInRange
  have := idxDist_cases s.cfg (inc_lt s.cfg s.rdIdx) h.wrViewInRange
  have := idxDist_cases s.cfg h.rdIdxInRange h.wrViewInRange
  have := cap_pos s.cfg
  have := modulus_eq s.cfg
  simp only [lenC, State.popByte_cfg, State.popByte_rdIdx, State.popByte_wrView]
  omega

theorem count_popByte {s : State} (h : FifoInv s) (he : emptyC s = false) : count s.popByte + 1 = count s := by
  obtain ⟨freed, visible, hidden, span, hF, hV, hH, hS, h1, h2, h3⟩ := h.parts
  have := inc_cases s.cfg h.rdIdxInRange
  have hne : s.wrView ≠ s.rdIdx := by simpa [emptyC] using he
  have := h.rdIdxInRange
  have := h.wrIdxInRange
  have := h.wrViewInRange
  have := idxDist_cases s.cfg (inc_lt s.cfg s.rdIdx) h.wrIdxInRange
  have := idxDist_cases s.cfg h.rdIdxInRange h.wrIdxInRange
  have := idxDist_cases s.cfg h.rdIdxInRange h.wrViewInRange
  have := cap_pos s.cfg
  have := modulus_eq s.cfg
  simp only [count, State.popByte_cfg, State.popByte_rdIdx, State.popByte_wrIdx]
  omega

theorem count_pushByte {s : State} (h : FifoInv s) (hf : fullP s = false) (b : Byte) :
    count (s.pushByte b) = count s + 1 := by
  obtain ⟨freed, visible, hidden, span, hF, hV, hH, hS, h1, h2, h3⟩ := h.parts
  have hne : idxDist s.cfg s.rdView s.wrIdx ≠ s.cfg.cap := by simpa [fullP] using hf
  have := inc_cases s.cfg h.wrIdxInRange
  have := h.rdIdxInRange
  have := h.wrIdxInRange
  have := idxDist_cases s.cfg h.rdIdxInRange h.wrIdxInRange
  have := idxDist_cases s.cfg h.rdIdxInRange (inc_lt s.cfg s.wrIdx)
  have := cap_pos s.cfg
  have := modulus_eq s.cfg
  simp only [count, State.pushByte_cfg, State.pushByte_rdIdx, State.pushByte_wrIdx]
  omega

/-! ### The unread bytes -/

/-- The bytes from the read position on: the oldest one, then those from the next position on. -/
theorem bytesFromRead_succ {s : State} (h : FifoInv s) (n : Nat) :
    bytesFromRead s (n + 1) = oldestByte s :: bytesFromRead s.popByte n := by
  unfold bytesFromRead
  rw [List.range_succ_eq_map, List.map_cons, List.map_map]
  congr 1
  · simp [oldestByte, Nat.mod_eq_of_lt h.rdIdxInRange]
  · apply List.map_congr_left
    intro j _
    have : (s.rdIdx + (j + 1)) % s.cfg.modulus = (inc s.cfg s.rdIdx + j) % s.cfg.modulus := by
      unfold inc
      rw [Nat.mod_add_mod]
      congr 1
      omega
    simp [memByte, this]

/-- A successful DEQ takes the oldest unread byte (20_memory.md R72). -/
theorem unread_popByte {s : State} (h : FifoInv s) (he : emptyC s = false) :
    unread s = oldestByte s :: unread s.popByte := by
  unfold unread
  rw [← count_popByte h he, bytesFromRead_succ h]

/-- A successful ENQ adds its byte after the unread ones and changes none of them (20_memory.md R80, R82). -/
theorem unread_pushByte {s : State} (h : FifoInv s) (hf : fullP s = false) (b : Byte) :
    unread (s.pushByte b) = unread s ++ [b] := by
  obtain ⟨freed, visible, hidden, span, hF, hV, hH, hS, h1, h2, h3⟩ := h.parts
  have hne : idxDist s.cfg s.rdView s.wrIdx ≠ s.cfg.cap := by simpa [fullP] using hf
  have := h.rdIdxInRange
  have := h.wrIdxInRange
  have := idxDist_cases s.cfg h.rdIdxInRange h.wrIdxInRange
  have := cap_pos s.cfg
  have := modulus_eq s.cfg
  have := slot_cases s.cfg h.wrIdxInRange
  unfold unread bytesFromRead
  rw [count_pushByte h hf, List.range_succ, List.map_append]
  congr 1
  · apply List.map_congr_left
    intro j hj
    have hj : j < count s := List.mem_range.1 hj
    unfold count at hj
    have := ahead_cases s.cfg (n := j) h.rdIdxInRange (by omega)
    have := slot_cases s.cfg (ahead_lt s.cfg s.rdIdx j)
    have hneq : slot s.cfg ((s.rdIdx + j) % s.cfg.modulus) ≠ slot s.cfg s.wrIdx := by omega
    simp [memByte, Memory.read_write, hneq]
  · have := ahead_cases s.cfg (n := count s) h.rdIdxInRange (by unfold count; omega)
    have hw : (s.rdIdx + count s) % s.cfg.modulus = s.wrIdx := by
      unfold count at *
      omega
    simp [memByte, hw]

end Sys2Proof.Machine
end

