-- ==== Sys2Proof/Laws/Framer.lean ====
section
/-! SUPPORT. What a byte does to the framer from a state that meets its invariant, and runs of several operations. -/

namespace Sys2Proof.Machine

/-! ### Lengths and room -/

theorem two_le_of_legal {c : Config} (h : c.legal = true) : 2 ≤ c.p := by
  simp only [Config.legal, Bool.and_eq_true, decide_eq_true_eq] at h
  exact h.1

/-- No class requires more than `P` bytes (00_scope.md R10). -/
theorem required_le {c : Config} (h : c.legal = true) (k : MsgClass) : required c k ≤ c.p := by
  have := two_le_of_legal h
  cases k <;> simp [required] <;> omega

/-- `rem > 0` implies `cur != Unset` and `widx < P` (42_framer_data.md R160). -/
theorem FramerInv.room {s : State} (h : FramerInv s) (hr : s.rem ≠ 0) : s.cur ≠ .unset ∧ s.widx < s.cfg.p := by
  have hc : s.cur ≠ .unset := fun hc => hr (h.unsetIsReset hc).2.1
  have := h.lengths hc
  have := required_le h.legal s.cur
  exact ⟨hc, by omega⟩

/-! ### One byte -/

/-- A status byte always finalizes and classifies (41_framer_status.md R141). -/
theorem FramerInv.statusStep_eq {s : State} (h : FramerInv s) (k : MsgClass) (c : Chan) :
    statusStep k c s = .next (afterStatus s k c (required s.cfg k) (endedExtended s)) :=
  statusStep_next fun _ => h.widxFits

/-- A data byte with `rem > 0` is accepted (42_framer_data.md R160). -/
theorem FramerInv.dataStep_eq {s : State} (h : FramerInv s) (hr : s.rem ≠ 0) (b : Byte) :
    dataStep b s = .next ((s.acceptData b).finish .none (completionEvent (s.acceptData b))) :=
  dataStep_accepts hr (h.room hr).1 (h.room hr).2

/-- DECODE is total (41_framer_status.md R140). -/
theorem FramerInv.decodeStep_total {s : State} (h : FramerInv s) (b : Byte) : ∃ t, decodeStep b s = .next t := by
  cases hb : isStatus b
  · rw [decodeStep_data hb]
    by_cases hr : s.rem = 0
    · exact ⟨_, dataStep_discards hr⟩
    · exact ⟨_, h.dataStep_eq hr b⟩
  · rw [decodeStep_status hb]
    exact ⟨_, h.statusStep_eq _ _⟩

/-- A data byte is stored as its seven bits with bit 7 clear (30_encoding.md R92). -/
theorem dataByte_eq_setWidth (d : Payload) : dataByte d = d.setWidth 8 := by
  revert d
  decide

@[simp] theorem operandOf_dataByte (d : Payload) : operandOf (dataByte d) = d := payloadOf_dataByte d

theorem dataByte_toNat (d : Payload) : (dataByte d).toNat = d.toNat := by
  revert d
  decide

/-- The two 7-bit groups do not overlap (20_memory.md R64). -/
theorem bendValue_eq {lsb msb : Byte} (h : isStatus lsb = false) : bendValue lsb msb = msb.toNat * 128 + lsb.toNat := by
  have : lsb.toNat < 128 := by
    revert lsb
    decide
  unfold bendValue
  rw [Nat.shiftLeft_eq, Nat.mul_comm, ← Nat.two_pow_add_eq_or_of_lt (i := 7) (by omega)]

/-! ### Frames -/

theorem FifoSame.refl (s : State) : FifoSame s s := ⟨rfl, rfl, rfl, rfl, rfl, rfl, rfl⟩

theorem FifoSame.trans {a b c : State} (h : FifoSame a b) (g : FifoSame b c) : FifoSame a c :=
  ⟨g.1.trans h.1, g.2.trans h.2, g.3.trans h.3, g.4.trans h.4, g.5.trans h.5, g.6.trans h.6, g.7.trans h.7⟩

theorem DriverSame.trans {a b c : State} (h : DriverSame a b) (g : DriverSame b c) : DriverSame a c :=
  ⟨g.1.trans h.1, g.2.trans h.2, g.3.trans h.3⟩

theorem fifoSame_afterStatus (s : State) (k : MsgClass) (c : Chan) (n : Nat) (e : Option Event) :
    FifoSame s (afterStatus s k c n e) := ⟨rfl, rfl, rfl, rfl, rfl, rfl, rfl⟩

theorem driverSame_afterStatus (s : State) (k : MsgClass) (c : Chan) (n : Nat) (e : Option Event) :
    DriverSame s (afterStatus s k c n e) := ⟨rfl, rfl, rfl⟩

theorem fifoSame_acceptData (s : State) (b : Byte) (r : Ret) (e : Option Event) :
    FifoSame s ((s.acceptData b).finish r e) := ⟨rfl, rfl, rfl, rfl, rfl, rfl, rfl⟩

theorem driverSame_acceptData (s : State) (b : Byte) (r : Ret) (e : Option Event) :
    DriverSame s ((s.acceptData b).finish r e) := ⟨rfl, rfl, rfl⟩

/-! ### Runs of operations -/

theorem performAll_cons {i : Instr} {is : List Instr} {s t : State} (h : exec i s = .next t) :
    performAll (i :: is) s = performAll is t := by
  rw [performAll, h]

theorem performAll_append {xs ys : List Instr} {s t : State} (h : performAll xs s = .next t) :
    performAll (xs ++ ys) s = performAll ys t := by
  induction xs generalizing s with
  | nil =>
    obtain rfl := Host.Outcome.next.inj h
    rfl
  | cons i is ih =>
    rw [performAll] at h
    split at h
    · rw [List.cons_append, performAll_cons ‹_›]
      exact ih h
    · cases h
    · cases h

/-- Decoding bytes is running the rows they select. -/
theorem performAll_decode (bs : List Byte) (s : State) :
    performAll (bs.map Instr.decode) s = performAll (bs.map decodeByte) s := by
  induction bs generalizing s with
  | nil => rfl
  | cons b bs ih =>
    simp only [List.map_cons, performAll]
    rw [exec_decodeByte, show exec (.decode b) s = decodeStep b s from rfl]
    simp only [ih]

end Sys2Proof.Machine
end

