-- ==== Sys2Proof/Laws/PerInstr.lean ====
section
/-! SUPPORT. Statements about every operation as syntax, one lemma per constructor. -/

namespace Sys2Proof.Laws.RowPattern

open Sys2Proof

/-- If the operation has a byte, the byte has the pattern of the operation's own row of the byte map (30_encoding.md
R105). -/
def Statement (i : Instr) : Prop :=
  ∀ b : Byte, encodeByte i = some b → ∃ r ∈ byteMap, r.mnemonic = i.mnemonic ∧ r.selects b = true

/-- A status byte of class index `k` has the row at place `k` of the byte map. -/
theorem of_statusByte {i : Instr} (k : BitVec 3) (c : Chan) (r : ByteRow) (hr : r ∈ byteMap)
    (hm : r.mnemonic = i.mnemonic) (hs : ∀ c, r.selects (statusByte k c) = true)
    (he : encodeByte i = some (statusByte k c)) : Statement i := by
  intro b hb
  obtain rfl : statusByte k c = b := by simpa [he] using hb
  exact ⟨r, hr, hm, hs c⟩

theorem stNoteOff (c : Chan) : Statement (.stNoteOff c) :=
  of_statusByte 0 c ⟨"ST_NOTE_OFF", 0x80, 0xF0⟩ (by decide) rfl (by decide) rfl

theorem stNoteOn (c : Chan) : Statement (.stNoteOn c) :=
  of_statusByte 1 c ⟨"ST_NOTE_ON", 0x90, 0xF0⟩ (by decide) rfl (by decide) rfl

theorem stPolyPressure (c : Chan) : Statement (.stPolyPressure c) :=
  of_statusByte 2 c ⟨"ST_POLY_PRESSURE", 0xA0, 0xF0⟩ (by decide) rfl (by decide) rfl

theorem stControlChange (c : Chan) : Statement (.stControlChange c) :=
  of_statusByte 3 c ⟨"ST_CONTROL_CHANGE", 0xB0, 0xF0⟩ (by decide) rfl (by decide) rfl

theorem stProgramChange (c : Chan) : Statement (.stProgramChange c) :=
  of_statusByte 4 c ⟨"ST_PROGRAM_CHANGE", 0xC0, 0xF0⟩ (by decide) rfl (by decide) rfl

theorem stChannelPressure (c : Chan) : Statement (.stChannelPressure c) :=
  of_statusByte 5 c ⟨"ST_CHANNEL_PRESSURE", 0xD0, 0xF0⟩ (by decide) rfl (by decide) rfl

theorem stPitchBend (c : Chan) : Statement (.stPitchBend c) :=
  of_statusByte 6 c ⟨"ST_PITCH_BEND", 0xE0, 0xF0⟩ (by decide) rfl (by decide) rfl

theorem stExtended (c : Chan) : Statement (.stExtended c) :=
  of_statusByte 7 c ⟨"ST_EXTENDED", 0xF0, 0xF0⟩ (by decide) rfl (by decide) rfl

theorem data (d : Payload) : Statement (.data d) := by
  intro b hb
  obtain rfl : dataByte d = b := by simpa [encodeByte] using hb
  exact ⟨⟨"DATA", 0x00, 0x80⟩, by decide, rfl, by revert d; decide⟩

/-- An operation without a byte has nothing to show. -/
theorem of_none {i : Instr} (he : encodeByte i = none) : Statement i := by
  intro b hb
  simp [he] at hb

theorem enq (b : Byte) : Statement (.enq b) := of_none rfl

theorem deq : Statement .deq := of_none rfl

theorem len : Statement .len := of_none rfl

theorem empty : Statement .empty := of_none rfl

theorem syncW (v : Nat) : Statement (.syncW v) := of_none rfl

theorem syncR (v : Nat) : Statement (.syncR v) := of_none rfl

theorem decode (b : Byte) : Statement (.decode b) := of_none rfl

theorem drain : Statement .drain := of_none rfl

theorem reset : Statement .reset := of_none rfl

theorem configureLine (r : Nat) : Statement (.configureLine r) := of_none rfl

end Sys2Proof.Laws.RowPattern
end

