-- ==== Sys2Proof/Tests/Slice0.lean ====
section
/-! SUPPORT. Tests whose expected values come from the spec (95_test_vectors.md and the rules' own examples), and one
witness for the hypotheses of each obligation. -/

namespace Sys2Proof.Tests

open Sys2Proof Sys2Proof.Machine

/-! ### Small configurations and states -/

/-- `C = 2`, `P = 4`, two-bit drop counter, EXACT. -/
def smallExact : Config := { k := 1, p := 4, dropW := 2, syncMode := .exact }

/-- The same, LAGGED. -/
def smallLagged : Config := { k := 1, p := 4, dropW := 2, syncMode := .lagged }

/-- The vectors' `F(wr_idx, rd_idx, wr_view, rd_view, drop_count)` with `mem`; the framer as after reset. -/
def fifoAt (c : Config) (w r wv rv d : Nat) (m : Memory) : State :=
  { State.resetWith c with wrIdx := w, rdIdx := r, wrView := wv, rdView := rv, dropCount := d, mem := m }

/-- The vectors' `D(cur, chan, rem, widx)` with `pay`; the FIFO as after reset. -/
def framerAt (c : Config) (k : MsgClass) (ch : Chan) (rem widx : Nat) (p : Memory) : State :=
  { State.resetWith c with cur := k, chan := ch, rem := rem, widx := widx, pay := p }

/-- The next state of an outcome. -/
def nextOf : Host.Outcome State Fault Refusal → Option State
  | .next t => some t
  | .fault _ => none
  | .refused _ => none

/-- The vectors' `D(...)` after an outcome, with the event. -/
def framerAfter (o : Host.Outcome State Fault Refusal) : Option (MsgClass × Chan × Nat × Nat × Option Event) :=
  (nextOf o).map fun t => (t.cur, t.chan, t.rem, t.widx, t.out.evt)

/-- The vectors' `F(...)` after an outcome, with the result. -/
def fifoAfter (o : Host.Outcome State Fault Refusal) : Option (Nat × Nat × Nat × Nat × Nat × Ret) :=
  (nextOf o).map fun t => (t.wrIdx, t.rdIdx, t.wrView, t.rdView, t.dropCount, t.out.ret)

/-- Whether an outcome is this refusal. -/
def refuses (r : Refusal) : Host.Outcome State Fault Refusal → Bool
  | .next _ => false
  | .fault _ => false
  | .refused q => q == r

/-! ### WellFormed refuses ill-formed terms -/

/-- 00_scope.md R10: `P >= 2`. -/
theorem test_config_payload_of_one_is_ill_formed : (Config.mk 6 1 16 .exact).legal = false := by decide

/-- 00_scope.md R9: `DROP_W >= 1`. -/
theorem test_config_counter_of_no_bits_is_ill_formed : (Config.mk 6 32 0 .exact).legal = false := by decide

/-- 00_scope.md R9, R10: the least legal parameters; `K = 0` is legal. -/
theorem test_config_least_is_well_formed : (Config.mk 0 2 1 .exact).legal = true := by decide

/-- 00_scope.md R12: with `C = 2` the index values are 0 to 3. -/
theorem test_sync_w_beyond_modulus_is_ill_formed : (Instr.syncW 4).wellFormed smallLagged = false := by decide

theorem test_sync_r_beyond_modulus_is_ill_formed : (Instr.syncR 4).wellFormed smallLagged = false := by decide

theorem test_sync_w_in_range_is_well_formed : (Instr.syncW 3).wellFormed smallLagged = true := by decide

/-- 30_encoding.md R107: `bend` is -8192 to 8191. -/
theorem test_pitch_bend_above_range_is_ill_formed : (Message.pitchBend 0 8192).wellFormed = false := by decide

theorem test_pitch_bend_below_range_is_ill_formed : (Message.pitchBend 0 (-8193)).wellFormed = false := by decide

theorem test_pitch_bend_ends_are_well_formed :
    (Message.pitchBend 0 (-8192)).wellFormed = true ∧ (Message.pitchBend 0 8191).wellFormed = true := by decide

/-! ### Decoding: one word per constructor, from the rows of 30_encoding.md R105 and the bytes of vector T1 -/

theorem test_decode_note_off : decodeTableWord 8 0b10001111 = some (.stNoteOff 15) := by decide
theorem test_decode_note_on : decodeTableWord 8 0b10010001 = some (.stNoteOn 1) := by decide
theorem test_decode_poly_pressure : decodeTableWord 8 0b10100001 = some (.stPolyPressure 1) := by decide
theorem test_decode_control_change : decodeTableWord 8 0b10110010 = some (.stControlChange 2) := by decide
theorem test_decode_program_change : decodeTableWord 8 0b11000111 = some (.stProgramChange 7) := by decide
theorem test_decode_channel_pressure : decodeTableWord 8 0b11010011 = some (.stChannelPressure 3) := by decide
theorem test_decode_pitch_bend : decodeTableWord 8 0b11101001 = some (.stPitchBend 9) := by decide
theorem test_decode_extended : decodeTableWord 8 0b11110111 = some (.stExtended 7) := by decide
theorem test_decode_data : decodeTableWord 8 0b01111111 = some (.data 127) := by decide

/-- 30_encoding.md R102: the boundary operations have no bits in the table, so only 8-bit words decode (log 20). -/
theorem test_decode_wrong_width : decodeTableWord 0 0 = none ∧ decodeTableWord 16 0x91 = none := by decide

/-- 30_encoding.md R90: bytes are decoded one at a time, in order. -/
theorem test_decode_stream : decode [0x91, 0x3C] = .ok (.stNoteOn 1, [0x3C]) := rfl

theorem test_decode_empty_stream : decode [] = .error .noByte := rfl

/-- 30_encoding.md R102: each strobe requests its operation. -/
theorem test_ports_enq : decodePorts { enqValid := true, enqData := 0x91 } true = .ok [.enq 0x91] := rfl
theorem test_ports_deq : decodePorts { deqReq := true } true = .ok [.deq] := rfl
theorem test_ports_decode : decodePorts { decValid := true, decByte := 0x40 } true = .ok [.decode 0x40] := rfl
theorem test_ports_drain : decodePorts { drainReq := true } true = .ok [.drain] := rfl
theorem test_ports_reset : decodePorts { rst := true } true = .ok [.reset] := rfl
theorem test_ports_none : decodePorts {} true = .ok [] := rfl

/-- 93_implementation_defined.md U8 and 70_reset_and_hazards.md R256. -/
theorem test_ports_reset_not_alone : decodePorts { rst := true, drainReq := true } true = .error .resetNotAlone := rfl
theorem test_ports_two_consumer_requests :
    decodePorts { deqReq := true, decValid := true } true = .error .twoConsumerRequests := rfl

/-- 30_encoding.md R102: `LEN`, `EMPTY`, the SYNC steps and `CONFIGURE_LINE` have no request port. -/
theorem test_no_request_port : encodePorts .len = none ∧ encodePorts .empty = none ∧ encodePorts (.syncW 1) = none ∧
    encodePorts (.syncR 1) = none ∧ encodePorts (.configureLine 0) = none := by decide

/-- 30_encoding.md R107: `PITCH_BEND 0, -1` is `[0xE0, 0x7F, 0x3F]` (vector P3). -/
theorem test_pitch_bend_macro : (Message.pitchBend 0 (-1)).bytes = [0xE0, 0x7F, 0x3F] := by decide

/-- 30_encoding.md R107, vector PG4: `EXTENDED 0, 0x01, 0x02, 0x03`. -/
theorem test_extended_macro : (Message.extended 0 [1, 2, 3]).bytes = [0xF0, 0x01, 0x02, 0x03] := by decide

/-! ### One step of each operation -/

/-- Vector F5: `ENQ` from `F(3,3,3,3,0)`; 40_fifo_ops.md R120 corner case 4: `wr_idx` wraps, slot 1 is written. -/
theorem test_enq_wraps :
    fifoAfter (exec (.enq 0xAA) (fifoAt smallExact 3 3 3 3 0 [])) = some (0, 3, 0, 3, 0, .enqOk) ∧
    (nextOf (exec (.enq 0xAA) (fifoAt smallExact 3 3 3 3 0 []))).map (fun t => t.mem) = some [(1, 0xAA)] := by decide

/-- Vector F6: a full FIFO, `drop_count` at its maximum 3. -/
theorem test_enq_full_saturates :
    fifoAfter (exec (.enq 0x07) (fifoAt smallExact 2 0 2 0 3 [(0, 1), (1, 2)])) =
      some (2, 0, 2, 0, 3, .enqFull) := by decide

/-- Vectors F8 and F4: the byte is returned and stays in `mem`; `rd_idx` wraps from 3 to 0. -/
theorem test_deq_wraps_and_keeps_mem :
    fifoAfter (exec .deq (fifoAt smallExact 0 3 0 3 0 [(1, 0xAB)])) = some (0, 0, 0, 0, 0, .deqByte 0xAB) ∧
    (nextOf (exec .deq (fifoAt smallExact 0 3 0 3 0 [(1, 0xAB)]))).map (fun t => t.mem) = some [(1, 0xAB)] := by decide

/-- Vector L1: in LAGGED mode a byte is invisible until `SYNC_W`. -/
theorem test_deq_lagged_false_empty :
    fifoAfter (exec .deq (fifoAt smallLagged 1 0 0 0 0 [(0, 0x91)])) = some (1, 0, 0, 0, 0, .deqEmpty) := by decide

/-- 40_fifo_ops.md R122's example: `C = 4`, `rd_idx = 6`, `wr_view = 1`. -/
theorem test_len_across_the_wrap :
    (nextOf (exec .len (fifoAt (Config.mk 2 32 16 .exact) 1 6 1 6 0 []))).map (fun t => t.out.ret) =
      some (.len 3) := by decide

/-- Vector L1: `EMPTY -> true` with a byte not yet visible. -/
theorem test_empty_lagged :
    (nextOf (exec .empty (fifoAt smallLagged 1 0 0 0 0 [(0, 0x91)]))).map (fun t => t.out.ret) =
      some (.isEmpty true) := by decide

/-- Vector L3 with `C = 4`: from `wr_view = 2`, `SYNC_W` to 3 is a step and to 1 is not. -/
theorem test_sync_w_forward_only :
    fifoAfter (exec (.syncW 3) (fifoAt (Config.mk 2 32 16 .lagged) 3 0 2 0 0 [])) = some (3, 0, 3, 0, 0, .none) ∧
    refuses .syncTargetIllegal (exec (.syncW 1) (fifoAt (Config.mk 2 32 16 .lagged) 3 0 2 0 0 [])) = true := by decide

/-- Vector L2: `SYNC_R` to 1. -/
theorem test_sync_r :
    fifoAfter (exec (.syncR 1) (fifoAt smallLagged 2 1 1 0 2 [])) = some (2, 1, 1, 1, 2, .none) := by decide

/-- 40_fifo_ops.md R126: in EXACT mode there are no SYNC steps. -/
theorem test_no_sync_in_exact_mode :
    refuses .noSyncInExactMode (exec (.syncW 0) State.reset) = true ∧
    refuses .noSyncInExactMode (exec (.syncR 0) State.reset) = true := by decide

/-- Vector T1, the state after each status byte from reset; no event. -/
theorem test_status_note_off : framerAfter (exec (.stNoteOff 15) State.reset) = some (.noteOff, 15, 2, 0, none) := by
  decide
theorem test_status_note_on : framerAfter (exec (.stNoteOn 1) State.reset) = some (.noteOn, 1, 2, 0, none) := by decide
theorem test_status_poly_pressure :
    framerAfter (exec (.stPolyPressure 1) State.reset) = some (.polyPressure, 1, 2, 0, none) := by decide
theorem test_status_control_change :
    framerAfter (exec (.stControlChange 2) State.reset) = some (.controlChange, 2, 2, 0, none) := by decide
theorem test_status_program_change :
    framerAfter (exec (.stProgramChange 7) State.reset) = some (.programChange, 7, 1, 0, none) := by decide
theorem test_status_channel_pressure :
    framerAfter (exec (.stChannelPressure 3) State.reset) = some (.channelPressure, 3, 1, 0, none) := by decide
theorem test_status_pitch_bend :
    framerAfter (exec (.stPitchBend 9) State.reset) = some (.pitchBend, 9, 2, 0, none) := by decide
theorem test_status_extended :
    framerAfter (exec (.stExtended 10) State.reset) = some (.extended, 10, 32, 0, none) := by decide

/-- Vector A6: the finalize of a full Extended message with `P = 4`, at the byte 0x90. -/
theorem test_status_finalizes_extended :
    framerAfter (exec (.decode 0x90) (framerAt smallExact .extended 0 0 4 [(0, 1), (1, 2), (2, 3), (3, 4)])) =
      some (.noteOn, 0, 2, 0, some (.sysEx 4 [1, 2, 3, 4])) := by decide

/-- Vector T4: 0xF7 has no special meaning; it ends one Extended message and opens another. -/
theorem test_f7_opens_an_extended_message :
    framerAfter (exec (.decode 0xF7) (framerAt Config.default .extended 0 30 2 [(0, 1), (1, 2)])) =
      some (.extended, 7, 32, 0, some (.sysEx 2 [1, 2])) := by decide

/-- Vector A6: the byte 0x05 when the payload is full is dropped. -/
theorem test_data_dropped_when_full :
    (nextOf (exec (.data 5) (framerAt smallExact .extended 0 0 4 [(0, 1), (1, 2), (2, 3), (3, 4)]))).map
      (fun t => (t.rem, t.widx, t.pay)) = some (0, 4, [(0, 1), (1, 2), (2, 3), (3, 4)]) := by decide

/-- 42_framer_data.md R162's example. -/
theorem test_data_stored :
    framerAfter (exec (.data 0x3C) (framerAt Config.default .noteOn 1 2 0 [])) = some (.noteOn, 1, 1, 1, none) := by
  decide

/-! ### Dispatch: the last data byte of one message of each class -/

/-- Vector P2. -/
theorem test_dispatch_note_off :
    framerAfter (exec (.decode 0x00) (framerAt Config.default .noteOff 15 1 1 [(0, 0x7F)])) =
      some (.noteOff, 15, 0, 2, some (.noteOff 15 0x7F)) := by decide

/-- Vector S7. -/
theorem test_dispatch_note_on :
    framerAfter (exec (.decode 0x40) (framerAt Config.default .noteOn 1 1 1 [(0, 0x3C)])) =
      some (.noteOn, 1, 0, 2, some (.noteOn 1 0x3C 0x40)) := by decide

/-- Vector S3: velocity 0 is a NoteOff. -/
theorem test_dispatch_note_on_velocity_zero :
    framerAfter (exec (.decode 0x00) (framerAt Config.default .noteOn 3 1 1 [(0, 0x45)])) =
      some (.noteOn, 3, 0, 2, some (.noteOff 3 0x45)) := by decide

/-- Vector A5. -/
theorem test_dispatch_poly_pressure :
    framerAfter (exec (.decode 0x22) (framerAt Config.default .polyPressure 1 1 1 [(0, 0x3C)])) =
      some (.polyPressure, 1, 0, 2, none) := by decide

/-- Vector S8. -/
theorem test_dispatch_control_change :
    framerAfter (exec (.decode 0x64) (framerAt Config.default .controlChange 2 1 1 [(0, 0x07)])) =
      some (.controlChange, 2, 0, 2, some (.controlChange 2 0x07 0x64)) := by decide

/-- Vector A3. -/
theorem test_dispatch_program_change :
    framerAfter (exec (.decode 0x05) (framerAt Config.default .programChange 7 1 0 [])) =
      some (.programChange, 7, 0, 1, some (.programChange 7 0x05)) := by decide

/-- Vector A5. -/
theorem test_dispatch_channel_pressure :
    framerAfter (exec (.decode 0x44) (framerAt Config.default .channelPressure 3 1 0 [])) =
      some (.channelPressure, 3, 0, 1, none) := by decide

/-- Vector P3, the exchange of its last row: the first data byte is the low seven bits. -/
theorem test_dispatch_pitch_bend :
    framerAfter (exec (.decode 0x00) (framerAt Config.default .pitchBend 0 1 1 [(0, 0x55)])) =
      some (.pitchBend, 0, 0, 2, some (.pitchBend 0 (-8107))) := by decide

/-- Vector P3: the port values of `PitchBend(0, -1)`, `PitchBend(0, -8192)` and `PitchBend(0, 2688)`. -/
theorem test_pitch_bend_port :
    (eventPort (some (.pitchBend 0 (-1)))).bend = some 0x3FFF ∧
    (eventPort (some (.pitchBend 0 (-8192)))).bend = some 0x2000 ∧
    (eventPort (some (.pitchBend 0 2688))).bend = some 0x0A80 := by decide

/-! ### DRAIN, RESET, CONFIGURE_LINE, the step -/

/-- Vector PG1: the first step of a pass is `DEQ -> 0x91`. -/
theorem test_drain_first_step :
    (nextOf (exec .drain (fifoAt (Config.mk 2 32 16 .exact) 3 0 3 0 0 [(0, 0x91), (1, 0x3C), (2, 0x40)]))).map
      (fun t => (t.rdIdx, t.pass, t.cur)) = some (1, .atDecode 0x91, .unset) := by decide

/-- Vector R1 of 95_test_vectors.md 2.6: on an empty FIFO the pass ends at once. -/
theorem test_drain_on_empty :
    (nextOf (exec .drain State.reset)).map (fun t => (t.out.ret, t.pass, portOut t |>.drainDone)) =
      some (.drainDone, .idle, true) := by decide

/-- Vector PG8: `RESET` loses the queued byte and the partial message, without an event. -/
theorem test_reset_fifo :
    fifoAfter (exec .reset (fifoAt Config.default 2 1 2 1 9 [(0, 0x91), (1, 0x3C)])) = some (0, 0, 0, 0, 0, .none) := by
  decide

theorem test_reset_framer :
    framerAfter (exec .reset (framerAt Config.default .noteOn 1 2 0 [])) = some (.unset, 0, 0, 0, none) := by decide

/-- 44_drain_and_boundary.md R204: nothing changes. -/
theorem test_configure_line : nextOf (exec (.configureLine 31250) State.reset) = some State.reset := by decide

/-- Vector PG7: a producer step between a pass's `DEQ` and its `DECODE`. -/
theorem test_producer_interrupts_a_pass :
    (nextOf (step { fifoAt (Config.mk 2 32 16 .exact) 2 1 2 1 0 [(0, 0x91), (1, 0x3C)] with
        pass := .atDecode 0x91, turns := [.onByteReceived 0x40, .pass] })).map
      (fun t => (t.wrIdx, t.rdIdx, t.pass, t.turns, t.out.ret)) =
      some (3, 1, .atDecode 0x91, [.pass], .none) := by decide

/-- Vector T1: the table's word runs as the first step after reset. -/
theorem test_fetch_word :
    framerAfter (step (State.reset.withFetchWord 8 0xC7)) = some (.programChange, 7, 1, 0, none) := by decide

/-- 93_implementation_defined.md U3: an operation called from the wrong context. -/
theorem test_wrong_context :
    refuses (.wrongContext .producer) (step { State.reset with turns := [.call .producer .deq] }) = true := by decide

/-! ### Witnesses: concrete states that meet the hypotheses of each obligation, clause by clause -/

/-- An empty FIFO at the wrap of the indices. -/
def emptyFifo : State := fifoAt smallExact 3 3 3 3 0 [(0, 1), (1, 2)]

/-- One unread byte, `C - 1` of them. -/
def oneByte : State := fifoAt smallExact 0 3 0 3 2 [(0, 1), (1, 0xAB)]

/-- A full FIFO, the drop counter one below its maximum. -/
def fullFifo : State := fifoAt smallExact 2 0 2 0 2 [(0, 1), (1, 2)]

/-- A full FIFO, the drop counter at its maximum. -/
def saturatedFifo : State := fifoAt smallExact 2 0 2 0 3 [(0, 1), (1, 2)]

/-- Vector L2: LAGGED, one byte unread that the consumer does not see, one freed slot the producer does not see. -/
def laggedFifo : State := fifoAt smallLagged 2 1 1 0 2 [(0, 0x91), (1, 0x3C)]

/-- A NoteOn that needs two more data bytes, one more, none. -/
def noteOnNeedsTwo : State := framerAt smallExact .noteOn 1 2 0 []
def noteOnNeedsOne : State := framerAt smallExact .noteOn 1 1 1 [(0, 0x3C)]
def noteOnDone : State := framerAt smallExact .noteOn 1 0 2 [(0, 0x3C), (1, 0x40)]

/-- A ProgramChange that needs its one data byte. -/
def programNeedsOne : State := framerAt smallExact .programChange 7 1 0 []

/-- An Extended message with no byte, with room for one more, full. -/
def extendedNew : State := framerAt smallExact .extended 0 4 0 []
def extendedAlmostFull : State := framerAt smallExact .extended 0 1 3 [(0, 1), (1, 2), (2, 3)]
def extendedFull : State := framerAt smallExact .extended 0 0 4 [(0, 1), (1, 2), (2, 3), (3, 4)]

/-- 70_reset_and_hazards.md R262: only a byte to enqueue, a pass, an unread byte or a view behind keeps a run going. -/
theorem test_run_over :
    runOver { emptyFifo with turns := [.drainAndDispatch, .call .consumer .len] } = true ∧
    runOver { emptyFifo with turns := [.drainAndDispatch, .onByteReceived 7] } = false ∧
    runOver { emptyFifo with pass := .atDeq } = false ∧ runOver oneByte = false ∧
    runOver (fifoAt smallLagged 1 1 1 0 0 []) = false := by decide

theorem emptyFifo_inv : FifoInv emptyFifo := by constructor <;> decide
theorem oneByte_inv : FifoInv oneByte := by constructor <;> decide
theorem fullFifo_inv : FifoInv fullFifo := by constructor <;> decide
theorem saturatedFifo_inv : FifoInv saturatedFifo := by constructor <;> decide
theorem laggedFifo_inv : FifoInv laggedFifo := by constructor <;> decide
theorem reset_framer_inv : FramerInv State.reset := by constructor <;> decide
theorem noteOnNeedsTwo_inv : FramerInv noteOnNeedsTwo := by constructor <;> decide
theorem noteOnNeedsOne_inv : FramerInv noteOnNeedsOne := by constructor <;> decide
theorem noteOnDone_inv : FramerInv noteOnDone := by constructor <;> decide
theorem programNeedsOne_inv : FramerInv programNeedsOne := by constructor <;> decide
theorem extendedNew_inv : FramerInv extendedNew := by constructor <;> decide
theorem extendedAlmostFull_inv : FramerInv extendedAlmostFull := by constructor <;> decide
theorem extendedFull_inv : FramerInv extendedFull := by constructor <;> decide

theorem witness_DecodeAndEncodeAgree :
    encodeByte (.stExtended 15) = some 0xFF ∧ encode (.data 0) = some [0x00] ∧
    encodePorts (.enq 0x80) = some { enqValid := true, enqData := 0x80 } := by decide

theorem witness_InvariantsHoldAtReset : (Config.mk 0 2 1 .lagged).legal = true := by decide

theorem witness_EveryStepKeepsTheFifoInvariant :
    FifoInv { oneByte with turns := [.onByteReceived 7] } ∧
    ∃ t, step { oneByte with turns := [.onByteReceived 7] } = .next t := by
  refine ⟨?_, _, rfl⟩
  constructor <;> decide

theorem witness_EveryStepKeepsTheFramerInvariant :
    FramerInv { noteOnNeedsOne with turns := [.byte 0x40] } ∧
    ∃ t, step { noteOnNeedsOne with turns := [.byte 0x40] } = .next t := by
  refine ⟨?_, _, rfl⟩
  constructor <;> decide

theorem witness_EveryStepKeepsTheStorageInvariant :
    FifoInv { fullFifo with turns := [.drainAndDispatch] } ∧ FramerInv { fullFifo with turns := [.drainAndDispatch] } ∧
    StorageInv { fullFifo with turns := [.drainAndDispatch] } ∧
    ∃ t, step { fullFifo with turns := [.drainAndDispatch] } = .next t := by
  refine ⟨?_, ?_, ?_, _, rfl⟩ <;> constructor <;> decide

theorem witness_EveryStepKeepsEventsInRange :
    FramerInv { extendedAlmostFull with turns := [.byte 0x84], events := [.pitchBend 0 (-8192), .noteOn 0 0 1] } ∧
    StorageInv { extendedAlmostFull with turns := [.byte 0x84], events := [.pitchBend 0 (-8192), .noteOn 0 0 1] } ∧
    EventInv { extendedAlmostFull with turns := [.byte 0x84], events := [.pitchBend 0 (-8192), .noteOn 0 0 1] } ∧
    ∃ t, step { extendedAlmostFull with
      turns := [.byte 0x84], events := [.pitchBend 0 (-8192), .noteOn 0 0 1] } = .next t := by
  refine ⟨?_, ?_, ?_, _, rfl⟩
  · constructor <;> decide
  · constructor <;> decide
  · simp [EventInv, eventInRange]

theorem witness_TheHardwareNeverFaults : FramerInv extendedFull := extendedFull_inv

theorem witness_EnqStoresWhenNotFull :
    idxDist oneByte.cfg oneByte.rdView oneByte.wrIdx ≠ 2 ^ oneByte.cfg.k := by decide

theorem witness_EnqRejectsAndCountsWhenFull :
    idxDist fullFifo.cfg fullFifo.rdView fullFifo.wrIdx = 2 ^ fullFifo.cfg.k ∧
    fullFifo.dropCount < 2 ^ fullFifo.cfg.dropW - 1 ∧
    idxDist saturatedFifo.cfg saturatedFifo.rdView saturatedFifo.wrIdx = 2 ^ saturatedFifo.cfg.k ∧
    ¬ saturatedFifo.dropCount < 2 ^ saturatedFifo.cfg.dropW - 1 := by decide

theorem witness_EnqWritesOneSlotOnly : fullP fullFifo = true ∧ fullP oneByte = false := by decide

theorem witness_DeqReturnsTheOldestByte :
    emptyFifo.wrView = emptyFifo.rdIdx ∧ oneByte.wrView ≠ oneByte.rdIdx := by decide

theorem witness_LenCountsWhatCanBeDequeued :
    FifoInv fullFifo ∧ 1 < idxDist fullFifo.cfg fullFifo.rdIdx fullFifo.wrView ∧
    FifoInv laggedFifo ∧ (∃ t, (Instr.syncW 2).agent = .sync ∧ exec (.syncW 2) laggedFifo = .next t) ∧
    ∃ t, (Instr.enq 9).agent = .producer ∧ exec (.enq 9) fullFifo = .next t :=
  ⟨fullFifo_inv, by decide, laggedFifo_inv, ⟨_, rfl, rfl⟩, ⟨_, rfl, rfl⟩⟩

theorem witness_EmptyTellsWhetherDeqSucceeds :
    FifoInv oneByte ∧ oneByte.wrView ≠ oneByte.rdIdx ∧
    FifoInv laggedFifo ∧ laggedFifo.pass = .idle ∧ laggedFifo.wrView = laggedFifo.rdIdx :=
  ⟨oneByte_inv, by decide, laggedFifo_inv, rfl, rfl⟩

/-- The first clause at both ends of its range (`v = 1` and `v = 2`), the third at the modulus and behind the view. -/
theorem witness_SyncWMovesTheConsumerView :
    laggedFifo.cfg.syncMode = .lagged ∧
    (1 < 2 * 2 ^ laggedFifo.cfg.k ∧
      idxDist laggedFifo.cfg laggedFifo.wrView 1 ≤ idxDist laggedFifo.cfg laggedFifo.wrView laggedFifo.wrIdx) ∧
    (laggedFifo.wrIdx < 2 * 2 ^ laggedFifo.cfg.k ∧ idxDist laggedFifo.cfg laggedFifo.wrView laggedFifo.wrIdx ≤
      idxDist laggedFifo.cfg laggedFifo.wrView laggedFifo.wrIdx) ∧
    2 * 2 ^ laggedFifo.cfg.k ≤ 4 ∧
    idxDist laggedFifo.cfg laggedFifo.wrView laggedFifo.wrIdx < idxDist laggedFifo.cfg laggedFifo.wrView 0 ∧
    emptyFifo.cfg.syncMode = .exact := by decide

/-- The first clause at both ends of its range (`v = 0` and `v = 1`), the third at the modulus and beyond the index. -/
theorem witness_SyncRMovesTheProducerView :
    laggedFifo.cfg.syncMode = .lagged ∧
    (0 < 2 * 2 ^ laggedFifo.cfg.k ∧
      idxDist laggedFifo.cfg laggedFifo.rdView 0 ≤ idxDist laggedFifo.cfg laggedFifo.rdView laggedFifo.rdIdx) ∧
    (laggedFifo.rdIdx < 2 * 2 ^ laggedFifo.cfg.k ∧ idxDist laggedFifo.cfg laggedFifo.rdView laggedFifo.rdIdx ≤
      idxDist laggedFifo.cfg laggedFifo.rdView laggedFifo.rdIdx) ∧
    2 * 2 ^ laggedFifo.cfg.k ≤ 4 ∧
    idxDist laggedFifo.cfg laggedFifo.rdView laggedFifo.rdIdx < idxDist laggedFifo.cfg laggedFifo.rdView 2 ∧
    emptyFifo.cfg.syncMode = .exact := by decide

theorem witness_ViewsAreConservative :
    FifoInv laggedFifo ∧ FifoInv fullFifo ∧ count fullFifo = 2 ^ fullFifo.cfg.k ∧ fullFifo.cfg.syncMode = .exact :=
  ⟨laggedFifo_inv, fullFifo_inv, by decide, rfl⟩

theorem witness_FifoIsAQueueOfItsUnreadBytes :
    FifoInv oneByte ∧ fullP oneByte = false ∧ emptyC oneByte = false ∧
    FifoInv fullFifo ∧ fullP fullFifo = true ∧
    FifoInv laggedFifo ∧ ∃ t, Instr.syncW 2 ≠ .deq ∧ Instr.syncW 2 ≠ .drain ∧ Instr.syncW 2 ≠ .reset ∧
      (Instr.syncW 2).agent ≠ .producer ∧ exec (.syncW 2) laggedFifo = .next t :=
  ⟨oneByte_inv, by decide, by decide, fullFifo_inv, by decide, laggedFifo_inv, _, by decide, by decide, by decide,
    by decide, rfl⟩

theorem witness_RunsKeepTheByteOrder :
    FifoInv { oneByte with turns := [.onByteReceived 7, .call .consumer .deq] } ∧
    (∀ x ∈ [Turn.onByteReceived 7, .call .consumer .deq], Turn.mayReset x = false) ∧
    ∃ t, Host.Core.run Sys2Proof.core 2 { oneByte with turns := [.onByteReceived 7, .call .consumer .deq] } = .next t := by
  refine ⟨?_, by decide, _, rfl⟩
  constructor <;> decide

/-- The second clause: after the `DEQ` no byte is left, although a `LEN` call is still to come. -/
theorem witness_RunsKeepTheByteOrder_over :
    FifoInv { oneByte with turns := [.call .consumer .deq, .call .consumer .len] } ∧
    (∀ x ∈ [Turn.call .consumer .deq, .call .consumer .len], Turn.mayReset x = false) ∧
    ∃ t, Host.Core.run Sys2Proof.core 1 { oneByte with turns := [.call .consumer .deq, .call .consumer .len] } = .next t ∧
      runOver t = true := by
  refine ⟨?_, by decide, _, rfl, by decide⟩
  constructor <;> decide

theorem witness_NoLossBelowCapacity :
    FifoInv emptyFifo ∧ emptyFifo.rdView = emptyFifo.rdIdx ∧ [0x07, (0x08 : Byte)] ≠ [] ∧
    count emptyFifo + [0x07, (0x08 : Byte)].length = 2 ^ emptyFifo.cfg.k :=
  ⟨emptyFifo_inv, rfl, by decide, by decide⟩

theorem witness_EnqAndDeqCommute : FifoInv oneByte ∧ fullP oneByte = false ∧ emptyC oneByte = false :=
  ⟨oneByte_inv, by decide, by decide⟩

theorem witness_ExactModeIsLaggedModeWithFullSync : FifoInv oneByte ∧ oneByte.cfg.syncMode = .exact :=
  ⟨oneByte_inv, rfl⟩

theorem witness_DropCountCountsRejectedBytes :
    FifoInv fullFifo ∧ (∃ t, exec (.enq 7) fullFifo = .next t ∧ t.dropCount = 3) ∧
    FifoInv saturatedFifo ∧ (∃ t, exec (.enq 7) saturatedFifo = .next t ∧ t.dropCount = 3) ∧
    ∃ t, exec .reset saturatedFifo = .next t ∧ t.dropCount = 0 :=
  ⟨fullFifo_inv, ⟨_, rfl, by decide⟩, saturatedFifo_inv, ⟨_, rfl, by decide⟩, _, rfl, rfl⟩

theorem witness_StatusRowsFinalizeThenClassify :
    extendedFull.cur = .extended ∧ extendedFull.widx = extendedFull.cfg.p ∧ noteOnDone.cur ≠ .extended ∧
    isStatus 0x80 = true ∧ isStatus 0xFF = true := by decide

theorem witness_DecodeRunsTheBytesRow :
    FramerInv noteOnNeedsOne ∧ isStatus 0x80 = true ∧ isStatus 0x7F = false ∧
    FramerSame noteOnNeedsOne { noteOnNeedsOne with wrIdx := 1 } :=
  ⟨noteOnNeedsOne_inv, by decide, by decide, ⟨rfl, rfl, rfl, rfl, rfl⟩⟩

theorem witness_StatusByteAbandonsIncompleteMessage :
    isStatus 0x80 = true ∧ noteOnNeedsOne.cur ≠ .unset ∧ noteOnNeedsOne.cur ≠ .extended ∧ 0 < noteOnNeedsOne.rem := by
  decide

theorem witness_StatusByteResynchronises :
    isStatus 0xFF = true ∧ noteOnNeedsOne.cfg = extendedFull.cfg ∧
    ∃ t t', exec (.decode 0xFF) noteOnNeedsOne = .next t ∧ exec (.decode 0xFF) extendedFull = .next t' :=
  ⟨by decide, rfl, _, _, rfl, rfl⟩

theorem witness_TerminatorStartsTheNextMessage :
    FramerInv extendedNew ∧ extendedNew.cur = .extended ∧ FramerInv extendedFull ∧ extendedFull.cur = .extended ∧
    isStatus 0xFF = true ∧ isStatus 0x84 = true ∧ (0x84 : Byte) = statusByte 0 4 :=
  ⟨extendedNew_inv, rfl, extendedFull_inv, rfl, by decide, by decide, by decide⟩

theorem witness_OnlyResetReturnsToUnset :
    Instr.decode 0x80 ≠ .reset ∧ extendedFull.cur ≠ .unset ∧ ∃ t, exec (.decode 0x80) extendedFull = .next t :=
  ⟨by decide, by decide, _, rfl⟩

theorem witness_StrayDataChangesNothing :
    (State.reset.rem = 0 ∧ State.reset.cur ≠ .extended) ∧ noteOnDone.rem = 0 ∧ noteOnDone.cur ≠ .extended := by decide

theorem witness_FullExtendedDropsData :
    FramerInv extendedFull ∧ extendedFull.cur = .extended ∧ extendedFull.rem = 0 ∧ isStatus 0x80 = true ∧
    FramerInv extendedAlmostFull ∧ extendedAlmostFull.cur = .extended ∧ extendedAlmostFull.rem ≠ 0 :=
  ⟨extendedFull_inv, rfl, rfl, by decide, extendedAlmostFull_inv, rfl, by decide⟩

theorem witness_DataByteIsStoredInOrder :
    FramerInv noteOnNeedsTwo ∧ noteOnNeedsTwo.cur ≠ .unset ∧ noteOnNeedsTwo.cur ≠ .extended ∧ 1 < noteOnNeedsTwo.rem ∧
    FramerInv noteOnNeedsOne ∧ noteOnNeedsOne.cur ≠ .unset ∧ noteOnNeedsOne.cur ≠ .extended ∧ 0 < noteOnNeedsOne.rem :=
  ⟨noteOnNeedsTwo_inv, by decide, by decide, by decide, noteOnNeedsOne_inv, by decide, by decide, by decide⟩

theorem witness_LastDataByteDispatches :
    (FramerInv noteOnNeedsOne ∧ noteOnNeedsOne.cur ≠ .unset ∧ noteOnNeedsOne.cur ≠ .extended ∧
      noteOnNeedsOne.rem = 1) ∧
    FramerInv programNeedsOne ∧ programNeedsOne.cur ≠ .unset ∧ programNeedsOne.cur ≠ .extended ∧
      programNeedsOne.rem = 1 :=
  ⟨⟨noteOnNeedsOne_inv, by decide, by decide, rfl⟩, programNeedsOne_inv, by decide, by decide, rfl⟩

theorem witness_ExtendedDataAccumulates :
    FramerInv extendedAlmostFull ∧ extendedAlmostFull.cur = .extended ∧ 0 < extendedAlmostFull.rem ∧
    FramerInv extendedNew ∧ extendedNew.cur = .extended ∧ 0 < extendedNew.rem :=
  ⟨extendedAlmostFull_inv, rfl, by decide, extendedNew_inv, rfl, by decide⟩

theorem witness_DataByteWritesOneCellOnly :
    FramerInv extendedFull ∧ extendedFull.rem = 0 ∧ FramerInv extendedAlmostFull ∧ 0 < extendedAlmostFull.rem :=
  ⟨extendedFull_inv, rfl, extendedAlmostFull_inv, by decide⟩

/-- For the seven statements about whole messages: a state in the middle of an Extended message. -/
theorem witness_MessageReports : FramerInv extendedAlmostFull := extendedAlmostFull_inv

theorem witness_ExtendedMessageReportsItsFirstBytes :
    FramerInv extendedAlmostFull ∧ isStatus 0x80 = true ∧ isStatus 0xFF = true :=
  ⟨extendedAlmostFull_inv, by decide, by decide⟩

theorem witness_AtMostOneEventPerOperation :
    (∃ t, Instr.decode 0x40 ≠ .reset ∧ exec (.decode 0x40) noteOnNeedsOne = .next t) ∧
    ∃ t, Instr.deq ≠ .reset ∧ (∀ b, Instr.deq ≠ .decode b) ∧ encodeByte .deq = none ∧ exec .deq oneByte = .next t :=
  ⟨⟨_, by decide, rfl⟩, _, by decide, by simp, rfl, rfl⟩

theorem witness_MessageStreamReportsEachMessageOnce :
    FramerInv extendedAlmostFull ∧ isStatus 0x80 = true ∧
    ∀ m ∈ [Message.pitchBend 0 (-8192), .pitchBend 0 8191, .noteOn 1 0x3C 0, .extended 0 [1, 2, 3, 4, 5]],
      m.wellFormed = true :=
  ⟨extendedAlmostFull_inv, by decide, by decide⟩

theorem witness_DrainAlternatesDeqAndDecode :
    (emptyFifo.pass = .idle ∧ emptyFifo.wrView = emptyFifo.rdIdx) ∧
    (oneByte.pass = .idle ∧ oneByte.wrView ≠ oneByte.rdIdx) ∧
    (oneByte.setPass (.atDecode 7)).pass ≠ .idle ∧
    ((oneByte.setPass (.atDecode 7)).turns = [] ∧ (oneByte.setPass (.atDecode 7)).pass = .atDecode 7) ∧
    ((oneByte.setPass .atDeq).turns = [] ∧ (oneByte.setPass .atDeq).pass = .atDeq) ∧
    (({ oneByte with turns := [.pass], pass := .atDecode 7 } : State).turns = .pass :: [] ∧
      ({ oneByte with turns := [.pass], pass := .atDecode 7 } : State).pass = .atDecode 7) ∧
    ({ oneByte with turns := [.pass], pass := .atDeq } : State).turns = .pass :: [] ∧
      ({ oneByte with turns := [.pass], pass := .atDeq } : State).pass = .atDeq := by
  refine ⟨?_, ?_, ?_, ?_, ?_, ?_, ?_, ?_⟩ <;> decide

theorem witness_DrainDecodesEverythingVisible :
    FifoInv fullFifo ∧ FramerInv fullFifo ∧ fullFifo.pass = .idle ∧ fullFifo.turns = [] := by
  refine ⟨fullFifo_inv, ?_, rfl, rfl⟩
  constructor <;> decide

theorem witness_EachElementHasOneWriter :
    (∃ t, (Instr.decode 0x40).agent ≠ .producer ∧ (Instr.decode 0x40).agent ≠ .sync ∧
      exec (.decode 0x40) noteOnNeedsOne = .next t) ∧
    (∃ t, (Instr.enq 7).agent ≠ .consumer ∧ (Instr.enq 7).agent ≠ .sync ∧ laggedFifo.cfg.syncMode = .lagged ∧
      exec (.enq 7) laggedFifo = .next t) ∧
    ∃ t, (Instr.syncR 1).agent ≠ .producer ∧ (Instr.syncR 1).agent ≠ .consumer ∧
      exec (.syncR 1) laggedFifo = .next t :=
  ⟨⟨_, by decide, by decide, rfl⟩, ⟨_, by decide, by decide, rfl, rfl⟩, _, by decide, by decide, rfl⟩

theorem witness_StepRunsTheTurnsOperation :
    ({ oneByte with turns := [.byte 0xFF] } : State).turns = .byte 0xFF :: [] ∧ oneByte.pass = .idle ∧
    ({ oneByte with turns := [.call .consumer .len], pass := .atDeq } : State).turns =
      .call Instr.len.agent .len :: [] ∧ occupiesConsumer .len = false ∧
    ({ oneByte with turns := [.drainAndDispatch] } : State).turns = .drainAndDispatch :: [] ∧
    ({ oneByte with turns := [.onByteReceived 7] } : State).turns = .onByteReceived 7 :: [] ∧
    encodePorts .drain = some { drainReq := true } ∧
    ({ oneByte with turns := [.pins { drainReq := true } true] } : State).turns =
      .pins { drainReq := true } true :: [] ∧
    decodeTableWord 8 255 = some (.stExtended 15) ∧ oneByte.turns = [] := by
  refine ⟨?_, ?_, ?_, ?_, ?_, ?_, ?_, ?_, ?_, ?_⟩ <;> decide

theorem witness_StrobesRaisedTogetherAreTwoSteps :
    oneByte.pass = .idle ∧
    (∃ s : State, s.pass = .idle ∧ s.turns = .pins { enqValid := true, enqData := 7, deqReq := true } true :: []) ∧
    ∃ s : State, s.pass = .idle ∧ s.turns = .pins { enqValid := true, enqData := 7, deqReq := true } false :: [] :=
  ⟨rfl, ⟨{ oneByte with turns := [.pins { enqValid := true, enqData := 7, deqReq := true } true] }, rfl, rfl⟩,
    { oneByte with turns := [.pins { enqValid := true, enqData := 7, deqReq := true } false] }, rfl, rfl⟩

theorem witness_BreachesOfContractAreRefused :
    Agent.producer ≠ Instr.deq.agent ∧
    (∃ s : State, s.turns = .call Instr.deq.agent .deq :: [] ∧ s.pass ≠ .idle ∧ occupiesConsumer .deq = true) ∧
    (∃ s : State, s.turns = .call .consumer .drain :: [] ∧ s.pass ≠ .idle) ∧
    (∃ p : PortIn, p.rst = true ∧ p.drainReq = true) ∧
    ∃ p : PortIn, p.rst = false ∧ p.deqReq = true ∧ p.decValid = true :=
  ⟨by decide, ⟨{ oneByte with turns := [.call .consumer .deq], pass := .atDeq }, rfl, by decide, rfl⟩,
    ⟨{ oneByte with turns := [.call .consumer .drain], pass := .atDecode 0 }, rfl, by decide⟩,
    ⟨{ rst := true, drainReq := true }, rfl, rfl⟩, { deqReq := true, decValid := true }, rfl, rfl, rfl⟩

/-! ### Unending executions -/

/-- One byte published, `wr_view` one behind. -/
def unseenByte : State := fifoAt smallLagged 1 0 0 0 0 [(0, 0x91)]

/-- A state in which the latest step presented nothing. -/
def resting (s : State) : State := { s with out := { ret := .none, evt := none } }

/-- SYNC_W shows the byte to the consumer; then no agent acts. -/
def syncedRun : Nat → State
  | 0 => unseenByte
  | _ + 1 => resting { unseenByte with wrView := 1 }

def syncedActs : Nat → Action
  | 0 => .perform (.syncW 1)
  | _ + 1 => .rest

/-- A pass over an empty FIFO makes its one step; then no agent acts. -/
def passRun : Nat → State
  | 0 => { emptyFifo with pass := .atDeq }
  | 1 => { emptyFifo with out := { ret := .drainDone, evt := none } }
  | _ + 2 => resting emptyFifo

def passActs : Nat → Action
  | 0 => .passStep
  | _ + 1 => .rest

/-- LAGGED, with the view behind at first and a SYNC_W that catches it up. -/
theorem witness_FairExecutions_sync :
    IsExecution syncedRun syncedActs ∧ FifoInv (syncedRun 0) ∧ (∀ n, syncedActs n ≠ .perform .reset) ∧
    (syncedRun 0).cfg.syncMode = .lagged ∧ SyncFair syncedRun syncedActs ∧
    (syncedRun 0).wrView ≠ (syncedRun 0).wrIdx := by
  refine ⟨fun n => ?_, by constructor <;> decide, fun n => ?_, rfl, ⟨fun n h => ?_, fun n h => ?_⟩, by decide⟩
  · cases n with
    | zero => exact ⟨[.call .sync (.syncW 1)], rfl, rfl⟩
    | succ n => exact ⟨[], rfl, rfl⟩
  · cases n <;> simp [syncedActs]
  · exact absurd rfl (h (n + 1) (Nat.le_succ n))
  · exact absurd rfl (h (n + 1) (Nat.le_succ n))

/-- EXACT, with a pass in progress at first that its fair step ends, and no byte accepted. -/
theorem witness_FairExecutions_pass :
    IsExecution passRun passActs ∧ FifoInv (passRun 0) ∧ (∀ n, passActs n ≠ .perform .reset) ∧
    (passRun 0).cfg.syncMode = .exact ∧ PassFair passRun passActs ∧
    (passRun 0).pass ≠ .idle ∧ (∀ m, 0 ≤ m → (passRun m).wrIdx = (passRun 0).wrIdx) := by
  refine ⟨fun n => ⟨[], ?_⟩, by constructor <;> decide, fun n => ?_, rfl, fun n h => ?_, by decide, fun m _ => ?_⟩
  · obtain _ | _ | n := n <;> exact ⟨rfl, rfl⟩
  · cases n <;> simp [passActs]
  · obtain _ | n := n
    · exact ⟨0, Nat.le_refl 0, rfl⟩
    · exact absurd rfl (h (n + 2) (Nat.le_succ _))
  · obtain _ | _ | m := m <;> rfl

end Sys2Proof.Tests
end

section
/-! The consumer's view of the FIFO (40_fifo_ops.md R122): DEQ keeps the FIFO invariant and takes one from `lenC`; the
producer and SYNC never shrink it. -/

namespace Sys2Proof.Machine

/-! ### DEQ keeps the FIFO invariant -/

/-- Presenting a result touches no FIFO element. -/
theorem FifoInv.finish {s : State} (h : FifoInv s) (r : Ret) (e : Option Event) : FifoInv (s.finish r e) := { h with }

theorem idxDist_self (c : Config) {a : Nat} (ha : a < c.modulus) : idxDist c a a = 0 := by simp [idxDist_eq c ha ha]

/-- Taking a visible byte moves one from the visible bytes to the freed ones (10_state.md R26); in EXACT mode the
producer sees the freed cell at once (40_fifo_ops.md R126). -/
theorem FifoInv.popByte {s : State} (h : FifoInv s) (he : emptyC s = false) : FifoInv s.popByte := by
  have hinc := inc_lt s.cfg s.rdIdx
  have hlen : idxDist s.cfg (inc s.cfg s.rdIdx) s.wrView + 1 = idxDist s.cfg s.rdIdx s.wrView := lenC_popByte h he
  have horder := h.viewsInOrder
  have hspan := h.spanFits
  cases hm : s.cfg.syncMode with
  | exact =>
    obtain ⟨hw, hr⟩ := h.exactViews hm
    have hv : s.popByte.rdView = inc s.cfg s.rdIdx := if_pos hm
    refine { h with rdIdxInRange := hinc, rdViewInRange := ?_, viewsInOrder := ?_, spanFits := ?_, exactViews := ?_ }
      <;> simp only [State.popByte_cfg, State.popByte_wrIdx, State.popByte_rdIdx, State.popByte_wrView, hv]
    · exact hinc
    · simp [hw, idxDist_self s.cfg hinc, idxDist_self s.cfg h.wrIdxInRange]
    · rw [hr, ← hw] at hspan
      rw [← hw]
      omega
    · simp [hw]
  | lagged =>
    have hv : s.popByte.rdView = s.rdView := if_neg (by simp [hm])
    refine { h with rdIdxInRange := hinc, rdViewInRange := ?_, viewsInOrder := ?_, spanFits := ?_, exactViews := ?_ }
      <;> simp only [State.popByte_cfg, State.popByte_wrIdx, State.popByte_rdIdx, State.popByte_wrView, hv]
    · exact h.rdViewInRange
    · have := h.rdIdxInRange
      have := inc_cases s.cfg h.rdIdxInRange
      have := idxDist_cases s.cfg h.rdViewInRange h.rdIdxInRange
      have := idxDist_cases s.cfg h.rdViewInRange hinc
      have := modulus_eq s.cfg
      have := cap_pos s.cfg
      omega
    · exact hspan
    · simp [hm]

/-! ### What the consumer can take -/

theorem lenC_le_cap {s : State} (h : FifoInv s) : lenC s ≤ s.cfg.cap := by
  have := h.viewsInOrder
  have := h.spanFits
  unfold lenC
  omega

/-- Each of as many DEQ steps in a row as LEN says takes a byte: stated of the last of `n + 1`. -/
theorem performAll_deq_takes {n : Nat} {s : State} (h : FifoInv s) (hn : n < lenC s) :
    ∃ t, performAll (List.replicate (n + 1) .deq) s = .next t ∧ ∃ b, t.out.ret = .deqByte b := by
  induction n generalizing s with
  | zero =>
    have he : emptyC s = false := by simpa [← emptyC_iff h] using hn.ne'
    exact ⟨_, performAll_cons (exec_deq_ok he), _, rfl⟩
  | succ n ih =>
    have he : emptyC s = false := by simpa [← emptyC_iff h] using (Nat.zero_lt_of_lt hn).ne'
    rw [List.replicate_succ, performAll_cons (exec_deq_ok he)]
    have hlen : lenC s.popByte + 1 = lenC s := lenC_popByte h he
    refine ih ((h.popByte he).finish _ _) ?_
    show n < lenC s.popByte
    omega

/-! ### What the producer and SYNC do to it -/

/-- Moving `wr_view` forward to a value that does not pass `wr_idx` lengthens the visible part (40_fifo_ops.md R124). -/
theorem lenC_le_syncW {s : State} (h : FifoInv s) {v : Nat} (hv : v < s.cfg.modulus)
    (hd : idxDist s.cfg s.wrView v ≤ idxDist s.cfg s.wrView s.wrIdx) :
    lenC s ≤ idxDist s.cfg s.rdIdx v := by
  obtain ⟨freed, visible, hidden, span, -, hV, hH, -, hsum, hspan, -⟩ := h.parts
  have := h.rdIdxInRange
  have := h.wrViewInRange
  have := idxDist_cases s.cfg h.rdIdxInRange h.wrViewInRange
  have := idxDist_cases s.cfg h.wrViewInRange hv
  have := idxDist_cases s.cfg h.rdIdxInRange hv
  have := modulus_eq s.cfg
  have := cap_pos s.cfg
  unfold lenC
  omega

/-- In EXACT mode the views equal their indices, so that the consumer sees every unread byte (40_fifo_ops.md R126). -/
theorem lenC_eq_count {s : State} (h : FifoInv s) (hm : s.cfg.syncMode = .exact) : lenC s = count s := by
  rw [lenC, count, (h.exactViews hm).1]

/-- An accepted byte is visible at once in EXACT mode and later in LAGGED mode. -/
theorem lenC_le_pushByte {s : State} (h : FifoInv s) (hf : fullP s = false) (b : Byte) :
    lenC s ≤ lenC (s.pushByte b) := by
  cases hm : s.cfg.syncMode with
  | exact =>
    calc lenC s = count s := lenC_eq_count h hm
      _ ≤ count (s.pushByte b) := by rw [count_pushByte h hf]; omega
      _ = lenC (s.pushByte b) := by simp [lenC, count, hm]
  | lagged => simp [lenC, hm]

/-- Only the consumer and RESET can shrink what LEN reports. -/
theorem lenC_le_of_effect {i : Instr} {s t : State} (h : FifoInv s) (hi : i.agent = .producer ∨ i.agent = .sync)
    (he : Effect i s t) : lenC s ≤ lenC t := by
  have row : ∀ b, i = .decode b ∨ i = decodeByte b → i.agent = .consumer := by
    rintro b (rfl | rfl)
    · rfl
    · exact decodeByte_agent b
  cases he with
  | quiet => exact le_rfl
  | drop => exact le_rfl
  | @push _ b hf => exact lenC_le_pushByte h hf b
  | syncW _ hv hd => exact lenC_le_syncW h hv hd
  | syncR => exact le_rfl
  | pop => simp [Instr.agent] at hi
  | passPop => simp [Instr.agent] at hi
  | reset => simp [Instr.agent] at hi
  | status hb => simp [row _ hb] at hi
  | accept hb => simp [row _ hb] at hi

/-- Settles O17: each DEQ keeps the FIFO invariant and takes one from the length, and of the effects of the producer and
SYNC those that move `wr_view` move it forward. -/
theorem lenCountsWhatCanBeDequeued : Obligations.LenCountsWhatCanBeDequeued := by
  intro s h
  refine ⟨?_, rfl, lenC_le_cap h, fun n => performAll_deq_takes h, fun i t hi he => ?_⟩
  · simp [exec, execLen, State.finish, lenC]
  · exact lenC_le_of_effect h hi (exec_effect he)

end Sys2Proof.Machine
end

section
/-! Status bytes (41_framer_status.md) and the messages they start: the state after a status byte, what DECODE reads and
writes, and whole messages of one and of two data bytes from any state that meets the framer invariant. -/

namespace Sys2Proof.Machine

/-! ### The state after a status byte -/

@[simp] theorem afterStatus_cfg (s : State) (k : MsgClass) (c : Chan) (n : Nat) (e : Option Event) :
    (afterStatus s k c n e).cfg = s.cfg := rfl
@[simp] theorem afterStatus_cur (s : State) (k : MsgClass) (c : Chan) (n : Nat) (e : Option Event) :
    (afterStatus s k c n e).cur = k := rfl
@[simp] theorem afterStatus_chan (s : State) (k : MsgClass) (c : Chan) (n : Nat) (e : Option Event) :
    (afterStatus s k c n e).chan = c := rfl
@[simp] theorem afterStatus_rem (s : State) (k : MsgClass) (c : Chan) (n : Nat) (e : Option Event) :
    (afterStatus s k c n e).rem = n := rfl
@[simp] theorem afterStatus_widx (s : State) (k : MsgClass) (c : Chan) (n : Nat) (e : Option Event) :
    (afterStatus s k c n e).widx = 0 := rfl
@[simp] theorem afterStatus_pay (s : State) (k : MsgClass) (c : Chan) (n : Nat) (e : Option Event) :
    (afterStatus s k c n e).pay = s.pay := rfl
@[simp] theorem afterStatus_events (s : State) (k : MsgClass) (c : Chan) (n : Nat) (e : Option Event) :
    (afterStatus s k c n e).events = s.events ++ e.toList := rfl
@[simp] theorem afterStatus_out (s : State) (k : MsgClass) (c : Chan) (n : Nat) (e : Option Event) :
    (afterStatus s k c n e).out = { ret := .none, evt := e } := rfl

/-- FINALIZE reports only from an Extended message (41_framer_status.md R142). -/
theorem endedExtended_of_ne {s : State} (h : s.cur ≠ .extended) : endedExtended s = none := if_neg h

theorem endedExtended_of_eq {s : State} (h : s.cur = .extended) :
    endedExtended s = some (.sysEx s.widx ((List.range s.widx).map (payByte s))) := if_pos h

/-- STATUS_STEP, written out as a state (41_framer_status.md R141). -/
theorem statusStep_eq_afterStatus {s : State} (h : s.cur = .extended → s.widx ≤ s.cfg.p) (k : MsgClass) (c : Chan) :
    statusStep k c s = .next (afterStatus s k c (required s.cfg k) (endedExtended s)) :=
  statusStep_next h

/-- DECODE of a status byte, written out as a state (41_framer_status.md R140, R141). -/
theorem exec_decode_status {b : Byte} {s : State} (hb : isStatus b = true) (h : s.cur = .extended → s.widx ≤ s.cfg.p) :
    exec (.decode b) s = .next (afterStatus s (classOfIndex (classIndex b)) (channelOf b)
      (required s.cfg (classOfIndex (classIndex b))) (endedExtended s)) :=
  (decodeStep_status hb).trans (statusStep_eq_afterStatus h _ _)

/-! ### The fields of a status byte as numbers (30_encoding.md R93, R96) -/

theorem classIndex_toNat {b : Byte} (h : isStatus b = true) : (classIndex b).toNat = b.toNat / 16 - 8 := by
  revert b
  decide

theorem channelOf_eq_ofNat (b : Byte) : channelOf b = BitVec.ofNat 4 (b.toNat % 16) := by
  revert b
  decide

/-- The classes in the order of their indices, each with its required length (30_encoding.md R93, R94). -/
def classTable (p : Nat) : List (MsgClass × Nat) :=
  [(.noteOff, 2), (.noteOn, 2), (.polyPressure, 2), (.controlChange, 2), (.programChange, 1), (.channelPressure, 1),
    (.pitchBend, 2), (.extended, p)]

/-- A class stands in the table at its index. -/
theorem getElem?_classTable (c : Config) (k : BitVec 3) :
    (classTable c.p)[k.toNat]? = some (classOfIndex k, required c (classOfIndex k)) := by
  obtain ⟨n, hn⟩ := k
  match n, hn with
  | 0, _ | 1, _ | 2, _ | 3, _ | 4, _ | 5, _ | 6, _ | 7, _ => rfl

/-- Settles O28: each row is the status step of its class, and the printed table lists the classes by their indices. -/
theorem statusRowsFinalizeThenClassify : Obligations.StatusRowsFinalizeThenClassify := by
  intro c s h
  have row := fun k => statusStep_eq_afterStatus h k c
  refine ⟨row _, row _, row _, row _, row _, row _, row _, row _, fun b hb => ?_⟩
  refine ⟨classOfIndex (classIndex b), required s.cfg (classOfIndex (classIndex b)), ?_, ?_⟩
  · rw [← classIndex_toNat hb]
    exact getElem?_classTable s.cfg (classIndex b)
  · rw [← channelOf_eq_ofNat]
    exact exec_decode_status hb h

/-! ### Everything DECODE can do -/

theorem decodeStep_cases {b : Byte} {s t : State} (h : decodeStep b s = .next t) :
    (isStatus b = true ∧ (s.cur = .extended → s.widx ≤ s.cfg.p) ∧
      t = afterStatus s (classOfIndex (classIndex b)) (channelOf b) (required s.cfg (classOfIndex (classIndex b)))
        (endedExtended s)) ∨
    (isStatus b = false ∧ s.rem = 0 ∧ t = s.finish .none none) ∨
    (isStatus b = false ∧ s.rem ≠ 0 ∧ s.cur ≠ .unset ∧ s.widx < s.cfg.p ∧
      t = (s.acceptData b).finish .none (completionEvent (s.acceptData b))) := by
  cases hb : isStatus b with
  | true => exact .inl ⟨rfl, statusStep_cases (decodeStep_status hb ▸ h)⟩
  | false =>
    rcases dataStep_cases (decodeStep_data hb ▸ h) with hd | ha
    · exact .inr (.inl ⟨rfl, hd⟩)
    · exact .inr (.inr ⟨rfl, ha⟩)

theorem fifoSame_finish (s : State) (r : Ret) (e : Option Event) : FifoSame s (s.finish r e) :=
  ⟨rfl, rfl, rfl, rfl, rfl, rfl, rfl⟩

theorem driverSame_finish (s : State) (r : Ret) (e : Option Event) : DriverSame s (s.finish r e) := ⟨rfl, rfl, rfl⟩

/-- The frame of DECODE (41_framer_status.md R140). -/
theorem decodeStep_frame {b : Byte} {s t : State} (h : decodeStep b s = .next t) : FifoSame s t ∧ DriverSame s t := by
  obtain ⟨-, -, rfl⟩ | ⟨-, -, rfl⟩ | ⟨-, -, -, -, rfl⟩ := decodeStep_cases h
  · exact ⟨fifoSame_afterStatus _ _ _ _ _, driverSame_afterStatus _ _ _ _ _⟩
  · exact ⟨fifoSame_finish _ _ _, driverSame_finish _ _ _⟩
  · exact ⟨fifoSame_acceptData _ _ _ _, driverSame_acceptData _ _ _ _⟩

/-- DECODE returns nothing, and what it presents is what it appends to the record. -/
theorem decodeStep_output {b : Byte} {s t : State} (h : decodeStep b s = .next t) :
    t.out.ret = .none ∧ t.events = s.events ++ t.out.evt.toList := by
  obtain ⟨-, -, rfl⟩ | ⟨-, -, rfl⟩ | ⟨-, -, -, -, rfl⟩ := decodeStep_cases h <;> exact ⟨rfl, rfl⟩

theorem decodeStep_status_evt {b : Byte} {s t : State} (h : decodeStep b s = .next t) (hb : isStatus b = true) :
    t.out.evt = endedExtended s := by
  obtain ⟨-, -, rfl⟩ | ⟨hd, -⟩ | ⟨hd, -⟩ := decodeStep_cases h
  · rfl
  · simp [hb] at hd
  · simp [hb] at hd

/-! ### DECODE reads the framer only (41_framer_status.md R140) -/

section

variable {s s' : State} (h : FramerSame s s') (he : s'.epoch = s.epoch)

include h he

theorem payByte_congr : payByte s' = payByte s := by
  funext i
  simp [payByte, h.pay, he]

theorem endedExtended_congr : endedExtended s' = endedExtended s := by
  simp [endedExtended, h.cur, h.widx, payByte_congr h he]

theorem dispatchEvent_congr : dispatchEvent s' = dispatchEvent s := by
  unfold dispatchEvent
  rw [h.cur]
  cases s.cur <;>
    simp [noteOffEvent, noteOnEvent, polyPressureEvent, controlChangeEvent, programChangeEvent, channelPressureEvent,
      pitchBendEvent, h.chan, payByte_congr h he]

theorem completionEvent_congr : completionEvent s' = completionEvent s := by
  simp [completionEvent, h.rem, h.cur, dispatchEvent_congr h he]

end

/-- Presenting a result changes nothing that the dispatch reads. -/
theorem dispatchEvent_finish (s : State) (r : Ret) (e : Option Event) :
    dispatchEvent (s.finish r e) = dispatchEvent s :=
  dispatchEvent_congr ⟨rfl, rfl, rfl, rfl, rfl⟩ rfl

theorem completionEvent_cases (s : State) : completionEvent s = dispatchEvent s ∨ completionEvent s = none := by
  unfold completionEvent
  split
  · exact .inl rfl
  · exact .inr rfl

theorem FramerSame.finish {s s' : State} (h : FramerSame s s') (r r' : Ret) (e e' : Option Event) :
    FramerSame (s.finish r e) (s'.finish r' e') := ⟨h.cur, h.chan, h.rem, h.pay, h.widx⟩

theorem FramerSame.acceptData {s s' : State} (h : FramerSame s s') (b : Byte) :
    FramerSame (s.acceptData b) (s'.acceptData b) := by
  constructor <;> simp [h.cur, h.chan, h.rem, h.pay, h.widx]

theorem FramerSame.afterStatus {s s' : State} (h : FramerSame s s') (k : MsgClass) (c : Chan) (n : Nat)
    (e e' : Option Event) : FramerSame (afterStatus s k c n e) (afterStatus s' k c n e') :=
  ⟨rfl, rfl, rfl, h.pay, rfl⟩

/-- A state that agrees on the framer, the parameters and the free contents decodes a byte in the same way. -/
theorem decodeStep_congr {b : Byte} {s s' t : State} (h : FramerSame s s') (hcfg : s'.cfg = s.cfg)
    (he : s'.epoch = s.epoch) (hd : decodeStep b s = .next t) :
    ∃ t', decodeStep b s' = .next t' ∧ FramerSame t t' ∧ t'.out = t.out := by
  obtain ⟨hb, hw, rfl⟩ | ⟨hb, hr, rfl⟩ | ⟨hb, hr, hc, hw, rfl⟩ := decodeStep_cases hd
  · refine ⟨_, exec_decode_status hb (by rwa [h.cur, h.widx, hcfg]), ?_, ?_⟩
    · rw [hcfg]
      exact h.afterStatus _ _ _ _ _
    · simp [endedExtended_congr h he]
  · exact ⟨_, (decodeStep_data hb).trans (dataStep_discards (h.rem ▸ hr)), h.finish _ _ _ _, rfl⟩
  · have hacc := h.acceptData b
    refine ⟨_, (decodeStep_data hb).trans (dataStep_accepts ?_ ?_ ?_), hacc.finish _ _ _ _, ?_⟩
    · rwa [h.rem]
    · rwa [h.cur]
    · rwa [h.widx, hcfg]
    · simp [completionEvent_congr hacc he]

theorem decodeStep_data_evt {b : Byte} {s t : State} (h : decodeStep b s = .next t) (hb : isStatus b = false) :
    t.out.evt = none ∨ t.out.evt = dispatchEvent t := by
  obtain ⟨hs, -⟩ | ⟨-, -, rfl⟩ | ⟨-, -, -, -, rfl⟩ := decodeStep_cases h
  · simp [hb] at hs
  · exact .inl rfl
  · rw [dispatchEvent_finish, State.finish_out]
    exact (completionEvent_cases _).symm

/-- Settles O29: DECODE is total under the framer invariant, and its frame, its event and its reads each have their
lemma. -/
theorem decodeRunsTheBytesRow : Obligations.DecodeRunsTheBytesRow := by
  intro b s h
  obtain ⟨t, ht⟩ := h.decodeStep_total b
  obtain ⟨hfifo, hdriver⟩ := decodeStep_frame ht
  obtain ⟨hret, hevents⟩ := decodeStep_output ht
  exact ⟨rfl, (exec_decodeByte b s).symm, t, ht, hfifo, hdriver, fun a => by rw [hfifo.mem], hret, hevents,
    decodeStep_status_evt ht, decodeStep_data_evt ht, fun s' hs hcfg he => decodeStep_congr hs hcfg he ht⟩

/-- Settles O30: a fixed-length class is not Extended, so that the finalize reports nothing, and classify overwrites the
rest. -/
theorem statusByteAbandonsIncompleteMessage : Obligations.StatusByteAbandonsIncompleteMessage := by
  intro b s hb _ hext _
  have hevt := endedExtended_of_ne hext
  exact ⟨_, exec_decode_status hb fun h => absurd h hext, hevt, by simp [hevt], rfl, rfl, rfl, rfl, rfl,
    fifoSame_afterStatus _ _ _ _ _⟩

/-! ### Data bytes of a fixed-length message -/

/-- A data byte that does not complete its message is stored and reports nothing (42_framer_data.md R162). -/
theorem exec_data_incomplete {s : State} (d : Payload) (hc : s.cur ≠ .unset) (hw : s.widx < s.cfg.p) (hr : 1 < s.rem) :
    exec (.data d) s = .next ((s.acceptData (dataByte d)).finish .none none) := by
  have hevt : completionEvent (s.acceptData (dataByte d)) = none := if_neg fun ⟨h, _⟩ => by
    rw [State.acceptData_rem] at h
    omega
  rw [← hevt]
  exact dataStep_accepts (by omega) hc hw

/-- The last data byte of a fixed-length message is stored and dispatched (42_framer_data.md R163). -/
theorem exec_data_last {s : State} (d : Payload) {e : Option Event} (hc : s.cur ≠ .unset) (hext : s.cur ≠ .extended)
    (hw : s.widx < s.cfg.p) (hr : s.rem = 1) (he : dispatchEvent (s.acceptData (dataByte d)) = e) :
    exec (.data d) s = .next ((s.acceptData (dataByte d)).finish .none e) := by
  have hevt : completionEvent (s.acceptData (dataByte d)) = e := (if_pos ⟨by simp [hr], hext⟩).trans he
  rw [← hevt]
  exact dataStep_accepts (by omega) hc hw

@[simp] theorem payByte_finish (s : State) (r : Ret) (e : Option Event) (j : Nat) :
    payByte (s.finish r e) j = payByte s j := rfl

/-! ### Whole messages -/

/-- The byte of a status row is the row's pattern plus the channel (30_encoding.md R105). -/
theorem statusByte_eq_add (k : BitVec 3) (c : Chan) : statusByte k 0 + c.setWidth 8 = statusByte k c := by
  revert k c
  decide

theorem decodeByte_add_channel (k : BitVec 3) (c : Chan) :
    decodeByte (statusByte k 0 + c.setWidth 8) = statusRow k c := by
  rw [statusByte_eq_add, decodeByte_statusByte]

/-- A status row under the framer invariant, with the required length of its class. -/
theorem FramerInv.exec_statusRow_eq {s : State} (h : FramerInv s) (k : BitVec 3) (c : Chan) {n : Nat}
    (hn : required s.cfg (classOfIndex k) = n) :
    exec (statusRow k c) s = .next (afterStatus s (classOfIndex k) c n (endedExtended s)) := by
  rw [exec_statusRow, h.statusStep_eq, hn]

/-- A message of two data bytes, for every class that requires two: the first reports nothing, the second what the dispatch
rule of the class makes of the channel and the two bytes (42_framer_data.md R162, R163). -/
theorem twoDataByteMessage_of_dispatch {k : BitVec 3} {c : Chan} {d0 d1 : Payload} {e : Option Event} {s : State}
    (h : FramerInv s) (hlen : required s.cfg (classOfIndex k) = 2) (hext : classOfIndex k ≠ .extended)
    (he : ∀ u : State, u.cur = classOfIndex k → u.chan = c → payByte u 0 = dataByte d0 → payByte u 1 = dataByte d1 →
      dispatchEvent u = e) :
    TwoDataByteMessage (statusRow k c) (classOfIndex k) (statusByte k 0) c d0 d1 e s := by
  have hp := two_le_of_legal h.legal
  have hc := classOfIndex_ne_unset k
  have h0 := exec_data_incomplete (s := afterStatus s (classOfIndex k) c 2 (endedExtended s)) d0 hc
    (Nat.zero_lt_of_lt hp) Nat.one_lt_two
  have h1 := exec_data_last d1 (s := ((afterStatus s (classOfIndex k) c 2 (endedExtended s)).acceptData
    (dataByte d0)).finish .none none) hc hext hp rfl
    (he _ rfl rfl (by simp [payByte_acceptData]) (by simp [payByte_acceptData]))
  exact ⟨decodeByte_add_channel k c, h.exec_statusRow_eq k c hlen, _, _, h0, h1, rfl, by simp, rfl, by simp, rfl, rfl, rfl,
    rfl, by simp [Memory.read_write, dataByte_eq_setWidth], by simp [dataByte_eq_setWidth],
    fun a ha0 ha1 => by simp [Memory.read_write, ha0, ha1],
    (fifoSame_afterStatus _ _ _ _ _).trans ((fifoSame_acceptData _ _ _ _).trans (fifoSame_acceptData _ _ _ _)),
    (driverSame_afterStatus _ _ _ _ _).trans ((driverSame_acceptData _ _ _ _).trans (driverSame_acceptData _ _ _ _))⟩

/-- A message of one data byte, in the same form. -/
theorem oneDataByteMessage_of_dispatch {k : BitVec 3} {c : Chan} {d0 : Payload} {e : Option Event} {s : State}
    (h : FramerInv s) (hlen : required s.cfg (classOfIndex k) = 1) (hext : classOfIndex k ≠ .extended)
    (he : ∀ u : State, u.cur = classOfIndex k → u.chan = c → payByte u 0 = dataByte d0 → dispatchEvent u = e) :
    OneDataByteMessage (statusRow k c) (classOfIndex k) (statusByte k 0) c d0 e s := by
  have h0 := exec_data_last (s := afterStatus s (classOfIndex k) c 1 (endedExtended s)) d0 (classOfIndex_ne_unset k) hext
    (Nat.zero_lt_of_lt (two_le_of_legal h.legal)) rfl (he _ rfl rfl (by simp [payByte_acceptData]))
  exact ⟨decodeByte_add_channel k c, h.exec_statusRow_eq k c hlen, _, h0, rfl, by simp, rfl, rfl, rfl, rfl,
    by simp [dataByte_eq_setWidth], fun a ha => by simp [Memory.read_write, ha],
    (fifoSame_afterStatus _ _ _ _ _).trans (fifoSame_acceptData _ _ _ _),
    (driverSame_afterStatus _ _ _ _ _).trans (driverSame_acceptData _ _ _ _)⟩

/-! ### What each class reports (43_dispatch.md) -/

theorem dataByte_eq_zero_iff (d : Payload) : dataByte d = 0#8 ↔ d = 0#7 := by
  revert d
  decide

section

variable {s : State} {c : Chan} {d0 d1 : Payload}

theorem dispatchEvent_noteOff (hk : s.cur = .noteOff) (hc : s.chan = c) (h0 : payByte s 0 = dataByte d0) :
    dispatchEvent s = some (.noteOff c d0) := by
  simp [dispatchEvent, hk, noteOffEvent, hc, h0]

theorem dispatchEvent_noteOn (hk : s.cur = .noteOn) (hc : s.chan = c) (h0 : payByte s 0 = dataByte d0)
    (h1 : payByte s 1 = dataByte d1) :
    dispatchEvent s = if d1 = 0 then some (.noteOff c d0) else some (.noteOn c d0 d1) := by
  simp [dispatchEvent, hk, noteOnEvent, hc, h0, h1, dataByte_eq_zero_iff]

theorem dispatchEvent_polyPressure (hk : s.cur = .polyPressure) : dispatchEvent s = none := by
  simp [dispatchEvent, hk, polyPressureEvent]

theorem dispatchEvent_controlChange (hk : s.cur = .controlChange) (hc : s.chan = c) (h0 : payByte s 0 = dataByte d0)
    (h1 : payByte s 1 = dataByte d1) : dispatchEvent s = some (.controlChange c d0 d1) := by
  simp [dispatchEvent, hk, controlChangeEvent, hc, h0, h1]

theorem dispatchEvent_programChange (hk : s.cur = .programChange) (hc : s.chan = c) (h0 : payByte s 0 = dataByte d0) :
    dispatchEvent s = some (.programChange c d0) := by
  simp [dispatchEvent, hk, programChangeEvent, hc, h0]

theorem dispatchEvent_channelPressure (hk : s.cur = .channelPressure) : dispatchEvent s = none := by
  simp [dispatchEvent, hk, channelPressureEvent]

end

/-! ### One message of each class -/

/-- Settles O40: NoteOff is class 0, and its dispatch does not read the second byte. -/
theorem noteOffMessageReportsNoteOff : Obligations.NoteOffMessageReportsNoteOff := fun _ _ _ _ h =>
  twoDataByteMessage_of_dispatch (k := 0) h rfl (by decide) fun _ hk hc h0 _ => dispatchEvent_noteOff hk hc h0

/-- Settles O41: NoteOn is class 1, and its dispatch tells a velocity of 0 apart. -/
theorem noteOnMessageReportsNoteOnOrNoteOff : Obligations.NoteOnMessageReportsNoteOnOrNoteOff := fun _ _ _ _ h =>
  twoDataByteMessage_of_dispatch (k := 1) h rfl (by decide) fun _ hk hc h0 h1 => dispatchEvent_noteOn hk hc h0 h1

/-- Settles O42: PolyPressure is class 2, which has no handler. -/
theorem polyPressureMessageReportsNothing : Obligations.PolyPressureMessageReportsNothing := fun _ _ _ _ h =>
  twoDataByteMessage_of_dispatch (k := 2) h rfl (by decide) fun _ hk _ _ _ => dispatchEvent_polyPressure hk

/-- Settles O43: ControlChange is class 3, and its dispatch reads both bytes. -/
theorem controlChangeMessageReportsControlChange : Obligations.ControlChangeMessageReportsControlChange :=
  fun _ _ _ _ h =>
    twoDataByteMessage_of_dispatch (k := 3) h rfl (by decide) fun _ hk hc h0 h1 =>
      dispatchEvent_controlChange hk hc h0 h1

/-- Settles O44: ProgramChange is class 4, which requires one byte. -/
theorem programChangeMessageReportsProgramChange : Obligations.ProgramChangeMessageReportsProgramChange :=
  fun _ _ _ h =>
    oneDataByteMessage_of_dispatch (k := 4) h rfl (by decide) fun _ hk hc h0 => dispatchEvent_programChange hk hc h0

/-- Settles O45: ChannelPressure is class 5, which requires one byte and has no handler. -/
theorem channelPressureMessageReportsNothing : Obligations.ChannelPressureMessageReportsNothing := fun _ _ _ h =>
  oneDataByteMessage_of_dispatch (k := 5) h rfl (by decide) fun _ hk _ _ => dispatchEvent_channelPressure hk

/-! ### The terminator of an Extended message -/

theorem exec_decode_dataByte (d : Payload) (s : State) : exec (.decode (dataByte d)) s = exec (.data d) s := by
  rw [← decodeByte_dataByte, exec_decodeByte]
  rfl

/-- Settles O32: the status byte's step is the same from every state, so that a NoteOff terminator and two data bytes are a
whole NoteOff message. -/
theorem terminatorStartsTheNextMessage : Obligations.TerminatorStartsTheNextMessage := by
  intro b s h hext hb
  refine ⟨_, exec_decode_status hb fun _ => h.widxFits, by simp [endedExtended_of_eq hext], rfl, rfl, rfl, rfl, rfl, ?_⟩
  rintro c note vel rfl
  obtain ⟨-, -, t, u, h0, h1, -, -, -, hevents, -⟩ := noteOffMessageReportsNoteOff c note vel s h
  refine ⟨u, ?_, hevents⟩
  rw [classIndex_statusByte, channelOf_statusByte]
  exact (performAll_cons ((exec_decode_dataByte _ _).trans h0)).trans
    (performAll_cons ((exec_decode_dataByte _ _).trans h1))

end Sys2Proof.Machine
end

section
/-! Data bytes (42_framer_data.md): the discarded byte of an Idle framer or of a full Extended message, and the stored byte
of a fixed-length message that is in progress. -/

namespace Sys2Proof.Machine

/-! ### Discarded data bytes (42_framer_data.md R161, R165, R166) -/

/-- A step that returns nothing and reports nothing changes only what it presents. -/
theorem finish_none_none (s : State) : s.finish .none none = { s with out := { ret := .none, evt := none } } := by
  simp [State.finish]

/-- The one test for discarding a data byte is `rem == 0` (42_framer_data.md R160). -/
theorem exec_data_discarded {s : State} (d : Payload) (h : s.rem = 0) :
    exec (.data d) s = .next { s with out := { ret := .none, evt := none } } := by
  rw [← finish_none_none]
  exact dataStep_discards h

theorem errorConditions_decode_dataByte (d : Payload) (s : State) :
    errorConditions (.decode (dataByte d)) s = dataConditions s := by
  simp [errorConditions, byteConditions]

theorem dataConditions_of_stray {s : State} (hr : s.rem = 0) (hext : s.cur ≠ .extended) :
    dataConditions s = [.stray] := by
  simp [dataConditions, idle, hr, hext]

theorem dataConditions_of_full {s : State} (hr : s.rem = 0) (hext : s.cur = .extended) : dataConditions s = [.xcap] := by
  simp [dataConditions, idle, hr, hext]

/-- Settles O34: `rem` is 0, so that the byte is discarded whatever the class. -/
theorem strayDataChangesNothing : Obligations.StrayDataChangesNothing := by
  intro d s hr hext
  have hdata := exec_data_discarded d hr
  exact ⟨(errorConditions_decode_dataByte d s).trans (dataConditions_of_stray hr hext),
    (exec_decode_dataByte d s).trans hdata, hdata⟩

/-- In an Extended message `rem` is the room left (10_state.md R34 item 3). -/
theorem FramerInv.rem_add_widx_of_extended {s : State} (h : FramerInv s) (hext : s.cur = .extended) :
    s.rem + s.widx = s.cfg.p := by
  simpa [hext, required] using h.lengths (by simp [hext])

/-- Settles O35: `rem + widx = P` turns the test for discarding into `widx = P`, and the finalize of the next status byte
reports `widx` bytes. -/
theorem fullExtendedDropsData : Obligations.FullExtendedDropsData := by
  intro d s h hext
  have hroom := h.rem_add_widx_of_extended hext
  refine ⟨by omega, fun hr => ?_⟩
  have hdata := exec_data_discarded d hr
  have hfull : s.widx = s.cfg.p := by omega
  refine ⟨(errorConditions_decode_dataByte d s).trans (dataConditions_of_full hr hext),
    (exec_decode_dataByte d s).trans hdata, hdata, fun b hb => ?_⟩
  refine ⟨_, exec_decode_status hb fun _ => h.widxFits, ?_⟩
  rw [afterStatus_out, endedExtended_of_eq hext, hfull]

/-! ### Stored data bytes (42_framer_data.md R162, R163) -/

/-- A message with bytes still to come is not complete. -/
theorem completionEvent_of_rem_ne_zero {s : State} (h : s.rem ≠ 0) : completionEvent s = none :=
  if_neg fun ⟨hr, _⟩ => h hr

/-- Settles O36: the byte is accepted, and its event is the completion event of the state that holds it. -/
theorem dataByteIsStoredInOrder : Obligations.DataByteIsStoredInOrder := by
  intro d s h _ _ hr
  refine ⟨completionEvent (s.acceptData (dataByte d)), fun hr1 => completionEvent_of_rem_ne_zero ?_, ?_⟩
  · rw [State.acceptData_rem]
    omega
  · rw [← dataByte_eq_setWidth]
    exact h.dataStep_eq hr.ne' (dataByte d)

/-- Settles O37: the byte that takes `rem` from 1 to 0 is stored and dispatched, and with `rem` at 0 every later data byte
is discarded. -/
theorem lastDataByteDispatches : Obligations.LastDataByteDispatches := by
  intro d s h hc hext hr
  have hlast := exec_data_last d hc hext (h.room (by omega)).2 hr rfl
  have hlen := h.lengths hc
  have hrem : s.rem - 1 = 0 := by omega
  refine ⟨_, hlast, rfl, rfl, hrem, ?_, ?_, ?_, ?_, fifoSame_acceptData _ _ _ _, driverSame_acceptData _ _ _ _,
    fun d' => exec_data_discarded d' hrem⟩
  · rw [State.finish_widx, State.acceptData_widx]
    omega
  · rw [← dataByte_eq_setWidth]
    rfl
  · rw [dispatchEvent_finish, State.finish_out]
  · rw [dispatchEvent_finish, State.finish_events, State.acceptData_events]

end Sys2Proof.Machine
end

section
/-! The hardware takes no exception (60_exceptions.md R220): of the operations only those that decode a byte have a stop,
of the steps only those that perform an operation, and under the framer invariant every byte is decoded. -/

namespace Sys2Proof.Machine

/-! ### Operations that always complete -/

theorem exec_enq_completes (b : Byte) (s : State) :
    ∃ t, exec (.enq b) s = .next t ∧ (t.out.ret = .enqOk ∨ t.out.ret = .enqFull) := by
  cases hf : fullP s with
  | false => exact ⟨_, exec_enq_ok hf, .inl rfl⟩
  | true => exact ⟨_, exec_enq_full hf, .inr rfl⟩

theorem exec_deq_completes (s : State) :
    ∃ t, exec .deq s = .next t ∧ ((∃ b, t.out.ret = .deqByte b) ∨ t.out.ret = .deqEmpty) := by
  cases he : emptyC s with
  | false => exact ⟨_, exec_deq_ok he, .inl ⟨_, rfl⟩⟩
  | true => exact ⟨_, exec_deq_empty he, .inr rfl⟩

/-! ### Where a fault can come from -/

theorem passDeq_ne_fault (s : State) (f : Fault) : passDeq s ≠ .fault f := by
  unfold passDeq
  split <;> simp

/-- Only an operation that decodes a byte has a stop. -/
theorem exec_fault {i : Instr} {s : State} {f : Fault} (h : exec i s = .fault f) : ∃ b, decodeStep b s = .fault f := by
  have row : ∀ b, encodeByte i = some b → ∃ b, decodeStep b s = .fault f := fun b hb => ⟨b, exec_byteRow hb s ▸ h⟩
  cases i with
  | stNoteOff c => exact row _ rfl
  | stNoteOn c => exact row _ rfl
  | stPolyPressure c => exact row _ rfl
  | stControlChange c => exact row _ rfl
  | stProgramChange c => exact row _ rfl
  | stChannelPressure c => exact row _ rfl
  | stPitchBend c => exact row _ rfl
  | stExtended c => exact row _ rfl
  | data d => exact row _ rfl
  | decode b => exact ⟨b, h⟩
  | enq b =>
    obtain ⟨t, ht, -⟩ := exec_enq_completes b s
    cases ht.symm.trans h
  | deq =>
    obtain ⟨t, ht, -⟩ := exec_deq_completes s
    cases ht.symm.trans h
  | syncW v =>
    simp only [exec, execSyncW] at h
    split at h
    · cases h
    · split at h <;> cases h
  | syncR v =>
    simp only [exec, execSyncR] at h
    split at h
    · cases h
    · split at h <;> cases h
  | drain =>
    simp only [exec, execDrain] at h
    split at h
    · exact absurd h (passDeq_ne_fault s f)
    · cases h
    · cases h
  | len => cases h
  | empty => cases h
  | reset => cases h
  | configureLine r => cases h

theorem discardResult_fault {o : Host.Outcome State Fault Refusal} {f : Fault} (h : discardResult o = .fault f) :
    o = .fault f := by
  cases o with
  | next t => cases h
  | fault g => exact h
  | refused r => cases h

/-- A step of a drain pass stops only where it decodes its byte. -/
theorem passStep_fault {s : State} {f : Fault} (h : passStep s = .fault f) :
    ∃ b, exec (.decode b) { s with pass := .atDeq } = .fault f := by
  unfold passStep at h
  split at h
  · cases h
  · exact absurd h (passDeq_ne_fault s f)
  · exact ⟨_, passDecode_eq_exec _ s ▸ h⟩

/-- A step stops only where the operation it performs does, on the state with other turns and another place in the drain
pass. -/
theorem step_fault {s : State} {f : Fault} (h : step s = .fault f) :
    ∃ i ts p, exec i { s with turns := ts, pass := p } = .fault f := by
  obtain ⟨ts, hts⟩ := fetch_state s
  unfold step at h
  split at h <;> rename_i s' hf <;> obtain rfl : s' = { s with turns := ts } := by rw [← hts, hf]
  · cases h
  · obtain ⟨b, hb⟩ := passStep_fault h
    exact ⟨.decode b, ts, .atDeq, hb⟩
  · exact ⟨_, ts, s.pass, h⟩
  · exact ⟨_, ts, s.pass, discardResult_fault h⟩
  · cases h

/-! ### Under the framer invariant -/

/-- The framer invariant does not speak of the turns or of the drain pass. -/
theorem FramerInv.withTurnsAndPass {s : State} (h : FramerInv s) (ts : List Turn) (p : Pass) :
    FramerInv { s with turns := ts, pass := p } := { h with }

theorem FramerInv.exec_ne_fault {s : State} (h : FramerInv s) (i : Instr) (f : Fault) : exec i s ≠ .fault f := by
  intro hx
  obtain ⟨b, hb⟩ := exec_fault hx
  obtain ⟨t, ht⟩ := h.decodeStep_total b
  cases ht.symm.trans hb

theorem FramerInv.step_ne_fault {s : State} (h : FramerInv s) (f : Fault) : step s ≠ .fault f := by
  intro hx
  obtain ⟨i, ts, p, hi⟩ := step_fault hx
  exact (h.withTurnsAndPass ts p).exec_ne_fault i f hi

/-- Settles O12: a stop of a step is a stop of an operation, that one is a stop of DECODE, and DECODE is total under the
framer invariant; ENQ and DEQ are total in every state. -/
theorem theHardwareNeverFaults : Obligations.TheHardwareNeverFaults := fun s h =>
  ⟨h.exec_ne_fault, h.step_ne_fault, fun b => exec_enq_completes b s, exec_deq_completes s, h.decodeStep_total⟩

end Sys2Proof.Machine
end

section
/-! The invariants (10_state.md R24, R26, R34; 43_dispatch.md R180): they hold at reset, every effect of an operation
keeps them, and so does every step. -/

namespace Sys2Proof.Machine

/-! ### From the effects of operations to steps -/

/-- What every effect of an operation makes true is true after every step, when neither side of it reads the turns, the
drain pass or what the latest step presents. -/
theorem step_of_effect {P Q : State → Prop} {s t : State}
    (hP : ∀ s ts p, P s → P { s with turns := ts, pass := p }) (hQ : ∀ t o, Q t → Q { t with out := o })
    (heffect : ∀ i s t, Effect i s t → P s → Q t) (hs : P s) (h : step s = .next t) : Q t := by
  obtain ⟨ts, rfl⟩ | ⟨i, ts, p, u, he, rfl | rfl⟩ := step_cases h
  · exact heffect .len _ _ (.quiet (by decide) (by simp) (by simp)) (hP s ts s.pass hs)
  · exact heffect i _ _ he (hP s ts p hs)
  · exact hQ u _ (heffect i _ u he (hP s ts p hs))

/-! ### Distances around the ring of indices -/

/-- An index on the way from `a` to `b` cuts the way in two. -/
theorem idxDist_split {c : Config} {a v b : Nat} (ha : a < c.modulus) (hv : v < c.modulus) (hb : b < c.modulus)
    (h : idxDist c a v ≤ idxDist c a b) : idxDist c a v + idxDist c v b = idxDist c a b := by
  have := idxDist_cases c ha hv
  have := idxDist_cases c hv hb
  have := idxDist_cases c ha hb
  omega

/-- Two ways that do not go once around are one way. -/
theorem idxDist_trans {c : Config} {a v b : Nat} (ha : a < c.modulus) (hv : v < c.modulus) (hb : b < c.modulus)
    (h : idxDist c a v + idxDist c v b < c.modulus) : idxDist c a b = idxDist c a v + idxDist c v b := by
  have := idxDist_cases c ha hv
  have := idxDist_cases c hv hb
  have := idxDist_cases c ha hb
  omega

theorem idxDist_inc_right {c : Config} {a b : Nat} (ha : a < c.modulus) (hb : b < c.modulus)
    (h : idxDist c a b + 1 < c.modulus) : idxDist c a (inc c b) = idxDist c a b + 1 := by
  have := inc_cases c hb
  have := idxDist_cases c ha hb
  have := idxDist_cases c ha (inc_lt c b)
  omega

/-- The unread bytes reach from the read index to the write index. -/
theorem rdIdx_add_count {s : State} (h : FifoInv s) : (s.rdIdx + count s) % s.cfg.modulus = s.wrIdx := by
  have := h.rdIdxInRange
  have := h.wrIdxInRange
  have hlt := idxDist_lt s.cfg s.rdIdx s.wrIdx
  have := idxDist_cases s.cfg h.rdIdxInRange h.wrIdxInRange
  have := ahead_cases s.cfg h.rdIdxInRange hlt.le
  unfold count
  omega

/-! ### The FIFO invariant (10_state.md R26) -/

theorem FifoInv.resetWith (c : Config) : FifoInv (State.resetWith c) := by
  have hM := modulus_pos c
  have h0 : idxDist c 0 0 = 0 := idxDist_self c hM
  refine ⟨hM, hM, hM, hM, ?_, ?_, Nat.two_pow_pos _, fun _ => ⟨rfl, rfl⟩⟩ <;> simp [State.resetWith, h0]

theorem FifoInv.countDrop {s : State} (h : FifoInv s) : FifoInv s.countDrop :=
  { h with dropCountFits := satInc_lt h.dropCountFits }

/-- An accepted byte lengthens the span by one, and the part the consumer does not see yet (LAGGED) or the part it sees
(EXACT) with it. -/
theorem FifoInv.pushByte {s : State} (h : FifoInv s) (hf : fullP s = false) (b : Byte) : FifoInv (s.pushByte b) := by
  have hinc := inc_lt s.cfg s.wrIdx
  have hroom : idxDist s.cfg s.rdView s.wrIdx ≠ s.cfg.cap := by simpa [fullP] using hf
  have hle := h.spanFits
  have horder := h.viewsInOrder
  have := cap_pos s.cfg
  have := modulus_eq s.cfg
  have hspan := idxDist_inc_right h.rdViewInRange h.wrIdxInRange (by omega)
  cases hm : s.cfg.syncMode with
  | exact =>
    obtain ⟨hw, hr⟩ := h.exactViews hm
    have hv : (s.pushByte b).wrView = inc s.cfg s.wrIdx := if_pos hm
    refine { h with wrIdxInRange := hinc, wrViewInRange := ?_, viewsInOrder := ?_, spanFits := ?_, exactViews := ?_ }
      <;> simp only [State.pushByte_cfg, State.pushByte_wrIdx, State.pushByte_rdIdx, State.pushByte_rdView, hv]
    · exact hinc
    · simp [hr, idxDist_self s.cfg hinc, idxDist_self s.cfg h.rdIdxInRange]
    · omega
    · simp [hr]
  | lagged =>
    have hv : (s.pushByte b).wrView = s.wrView := if_neg (by simp [hm])
    have hhidden := idxDist_inc_right h.wrViewInRange h.wrIdxInRange (by omega)
    refine { h with wrIdxInRange := hinc, wrViewInRange := ?_, viewsInOrder := ?_, spanFits := ?_, exactViews := ?_ }
      <;> simp only [State.pushByte_cfg, State.pushByte_wrIdx, State.pushByte_rdIdx, State.pushByte_rdView, hv]
    · exact h.wrViewInRange
    · omega
    · omega
    · simp [hm]

/-- SYNC_W makes a part of the hidden bytes visible (40_fifo_ops.md R124). -/
theorem FifoInv.syncW {s : State} (h : FifoInv s) {v : Nat} (hm : s.cfg.syncMode = .lagged) (hv : v < s.cfg.modulus)
    (hd : idxDist s.cfg s.wrView v ≤ idxDist s.cfg s.wrView s.wrIdx) : FifoInv { s with wrView := v } := by
  have hsplit := idxDist_split h.wrViewInRange hv h.wrIdxInRange hd
  have horder := h.viewsInOrder
  have := h.spanFits
  have := cap_pos s.cfg
  have := modulus_eq s.cfg
  have htrans := idxDist_trans h.rdIdxInRange h.wrViewInRange hv (by omega)
  refine { h with wrViewInRange := hv, viewsInOrder := ?_, exactViews := by simp [hm] }
  dsimp only
  omega

/-- SYNC_R takes a part of the freed cells out of the span (40_fifo_ops.md R125). -/
theorem FifoInv.syncR {s : State} (h : FifoInv s) {v : Nat} (hm : s.cfg.syncMode = .lagged) (hv : v < s.cfg.modulus)
    (hd : idxDist s.cfg s.rdView v ≤ idxDist s.cfg s.rdView s.rdIdx) : FifoInv { s with rdView := v } := by
  obtain ⟨freed, visible, hidden, span, hF, hV, hH, hS, hsum, hspan, hcount⟩ := h.parts
  have hsplit := idxDist_split h.rdViewInRange hv h.rdIdxInRange hd
  have := cap_pos s.cfg
  have := modulus_eq s.cfg
  have htrans := idxDist_trans hv h.rdIdxInRange h.wrIdxInRange (by omega)
  refine { h with rdViewInRange := hv, viewsInOrder := ?_, spanFits := ?_, exactViews := by simp [hm] } <;>
    dsimp only <;> omega

theorem FifoInv.of_effect {i : Instr} {s t : State} (h : FifoInv s) (he : Effect i s t) : FifoInv t := by
  cases he with
  | quiet => exact h.finish _ _
  | drop => exact h.countDrop.finish _ _
  | push hf => exact (h.pushByte hf _).finish _ _
  | pop he => exact (h.popByte he).finish _ _
  | passPop _ he => exact { h.popByte he with }
  | syncW hm hv hd => exact (h.syncW hm hv hd).finish _ _
  | syncR hm hv hd => exact (h.syncR hm hv hd).finish _ _
  | status => exact { h with }
  | accept => exact { h with }
  | reset => exact { FifoInv.resetWith s.cfg with }

/-- Settles O8: every effect of an operation keeps the invariant, which reads neither turns, pass nor output. -/
theorem everyStepKeepsTheFifoInvariant : Obligations.EveryStepKeepsTheFifoInvariant := fun _ _ =>
  step_of_effect (P := FifoInv) (Q := FifoInv) (fun _ _ _ h => { h with }) (fun _ _ h => { h with })
    (fun _ _ _ he h => h.of_effect he)

/-! ### The framer invariant (10_state.md R34) -/

theorem FramerInv.resetWith {c : Config} (h : c.legal = true) : FramerInv (State.resetWith c) :=
  ⟨h, fun hc => absurd rfl hc, fun _ => ⟨rfl, rfl, rfl⟩, Nat.zero_le _, Nat.zero_le _⟩

theorem FramerInv.finish {s : State} (h : FramerInv s) (r : Ret) (e : Option Event) : FramerInv (s.finish r e) :=
  { h with }

theorem FramerInv.classify {s : State} (h : FramerInv s) {k : MsgClass} (hk : k ≠ .unset) (c : Chan) :
    FramerInv (s.classify k c (required s.cfg k)) :=
  ⟨h.legal, fun _ => rfl, fun hc => absurd hc hk, Nat.zero_le _, required_le h.legal k⟩

/-- An accepted byte moves one from `rem` to `widx`. -/
theorem FramerInv.acceptData {s : State} (h : FramerInv s) (hr : s.rem ≠ 0) (b : Byte) :
    FramerInv (s.acceptData b) := by
  obtain ⟨hc, hw⟩ := h.room hr
  have hlen := h.lengths hc
  have hfits := h.remFits
  refine ⟨h.legal, fun _ => ?_, fun hu => absurd hu hc, ?_, ?_⟩ <;>
    simp only [State.acceptData_rem, State.acceptData_widx, State.acceptData_cur, State.acceptData_cfg] <;> omega

theorem FramerInv.of_effect {i : Instr} {s t : State} (h : FramerInv s) (he : Effect i s t) : FramerInv t := by
  cases he with
  | status => exact (h.classify (classOfIndex_ne_unset _) _).finish _ _
  | accept _ _ hr => exact (h.acceptData hr _).finish _ _
  | reset => exact { FramerInv.resetWith h.legal with }
  | quiet => exact { h with }
  | drop => exact { h with }
  | push => exact { h with }
  | pop => exact { h with }
  | passPop => exact { h with }
  | syncW => exact { h with }
  | syncR => exact { h with }

/-- Settles O9: classify sets both sides of `rem + widx = REQ[cur]`, an accepted byte moves one across, and no other
effect but RESET touches the framer. -/
theorem everyStepKeepsTheFramerInvariant : Obligations.EveryStepKeepsTheFramerInvariant := fun _ _ =>
  step_of_effect (P := FramerInv) (Q := FramerInv) (fun _ _ _ h => { h with }) (fun _ _ h => { h with })
    (fun _ _ _ he h => h.of_effect he)

/-! ### The storage invariant (10_state.md R21, R32, R41) -/

theorem StorageInv.resetWith (c : Config) : StorageInv (State.resetWith c) := by
  have hcount : count (State.resetWith c) = 0 := idxDist_self c (modulus_pos c)
  refine ⟨.nil, .nil, by simp [State.resetWith], by simp [State.resetWith], fun n hn => ?_, fun n hn => ?_⟩
  · rw [hcount] at hn
    exact absurd hn n.not_lt_zero
  · exact absurd hn n.not_lt_zero

/-- The cell of an accepted byte is inside the array, and it is the one that joins the unread cells. -/
theorem StorageInv.pushByte {s : State} (h : StorageInv s) (hi : FifoInv s) (hf : fullP s = false) (b : Byte) :
    StorageInv (s.pushByte b) := by
  have hform := Memory.write_wf (slot s.cfg s.wrIdx) b h.memForm
  refine { h with memForm := hform, memCells := fun x hx => ?_, unreadWritten := fun n hn => ?_ }
  · rcases Memory.mem_write hx with rfl | hx
    · exact slot_lt _ _
    · exact h.memCells x hx
  · rw [count_pushByte hi hf] at hn
    simp only [State.pushByte_mem, State.pushByte_cfg, State.pushByte_rdIdx, Memory.read_write]
    split
    · rfl
    · rename_i hne
      have hn : n ≠ count s := by
        rintro rfl
        exact hne (by rw [rdIdx_add_count hi])
      exact h.unreadWritten n (by omega)

/-- Going on from the next index is going one further from this one. -/
theorem inc_add_mod (c : Config) (i n : Nat) : (inc c i + n) % c.modulus = (i + (n + 1)) % c.modulus := by
  rw [inc, Nat.mod_add_mod, Nat.add_right_comm, Nat.add_assoc]

theorem StorageInv.popByte {s : State} (h : StorageInv s) (hi : FifoInv s) (he : emptyC s = false) :
    StorageInv s.popByte := by
  refine { h with unreadWritten := fun n hn => ?_ }
  have := count_popByte hi he
  have hw := h.unreadWritten (n + 1) (by omega)
  rwa [← inc_add_mod] at hw

/-- The cell of an accepted data byte is inside the buffer, and it is the one that joins the cells below `widx`. -/
theorem StorageInv.acceptData {s : State} (h : StorageInv s) {b : Byte} (hb : isStatus b = false)
    (hw : s.widx < s.cfg.p) : StorageInv (s.acceptData b) := by
  refine { h with payForm := Memory.write_wf _ _ h.payForm, payCells := fun x hx => ?_, payWritten := fun n hn => ?_ }
  · rcases Memory.mem_write hx with rfl | hx
    · exact ⟨hw, hb⟩
    · exact h.payCells x hx
  · simp only [State.acceptData_pay, Memory.read_write]
    split
    · rfl
    · exact h.payWritten n (by rw [State.acceptData_widx] at hn; omega)

theorem StorageInv.of_effect {i : Instr} {s t : State} (h : StorageInv s) (hi : FifoInv s) (he : Effect i s t) :
    StorageInv t := by
  cases he with
  | push hf => exact { h.pushByte hi hf _ with }
  | pop he => exact { h.popByte hi he with }
  | passPop _ he => exact { h.popByte hi he with }
  | accept _ hb _ _ hw => exact { h.acceptData hb hw with }
  | status => exact { h with payWritten := fun n hn => absurd hn n.not_lt_zero }
  | reset => exact { StorageInv.resetWith s.cfg with }
  | quiet => exact { h with }
  | drop => exact { h with }
  | syncW => exact { h with }
  | syncR => exact { h with }

/-- Settles O10: the only writes are ENQ's at the write position and the data byte's at `widx`, each the cell that the
rules may read next. -/
theorem everyStepKeepsTheStorageInvariant : Obligations.EveryStepKeepsTheStorageInvariant := fun _ _ hf _ hs =>
  step_of_effect (P := fun s => FifoInv s ∧ StorageInv s) (Q := StorageInv)
    (fun _ _ _ ⟨hf, hs⟩ => ⟨{ hf with }, { hs with }⟩) (fun _ _ h => { h with })
    (fun _ _ _ he ⟨hf, hs⟩ => hs.of_effect hf he) ⟨hf, hs⟩

/-! ### Events in range (43_dispatch.md R180) -/

/-- A payload byte of the current message is a data byte (10_state.md R32). -/
theorem StorageInv.isStatus_payByte {s : State} (h : StorageInv s) {j : Nat} (hj : j < s.widx) :
    isStatus (payByte s j) = false := by
  obtain ⟨v, hv⟩ := Option.isSome_iff_exists.1 (h.payWritten j hj)
  rw [payByte, hv]
  exact (h.payCells _ (Memory.mem_of_read hv)).2

theorem operandOf_ne_zero {b : Byte} (hb : isStatus b = false) (h : b ≠ 0) : operandOf b ≠ 0 := by
  revert b
  decide

theorem toNat_lt_of_data {b : Byte} (hb : isStatus b = false) : b.toNat < 128 := by
  revert b
  decide

/-- The 14-bit value less 8192 (43_dispatch.md R187). -/
theorem bendSigned_range {lsb msb : Byte} (hl : isStatus lsb = false) (hm : isStatus msb = false) :
    -8192 ≤ bendSigned lsb msb ∧ bendSigned lsb msb ≤ 8191 := by
  have := toNat_lt_of_data hl
  have := toNat_lt_of_data hm
  rw [bendSigned, bendValue_eq hl]
  omega

/-- A dispatched event is in range when the payload bytes it reads are data bytes. -/
theorem dispatchEvent_inRange {s : State} {e : Event}
    (hpay : ∀ j < required s.cfg s.cur, isStatus (payByte s j) = false)
    (he : dispatchEvent s = some e) : eventInRange s.cfg e := by
  cases hk : s.cur <;> simp only [dispatchEvent, hk, reduceCtorEq] at he hpay
  case noteOff => obtain rfl := Option.some.inj he; trivial
  case noteOn =>
    unfold noteOnEvent at he
    split at he <;> obtain rfl := Option.some.inj he
    · trivial
    · exact operandOf_ne_zero (hpay 1 Nat.one_lt_two) ‹_›
  case polyPressure => cases he
  case controlChange => obtain rfl := Option.some.inj he; trivial
  case programChange => obtain rfl := Option.some.inj he; trivial
  case channelPressure => cases he
  case pitchBend =>
    obtain rfl := Option.some.inj he
    exact bendSigned_range (hpay 0 Nat.two_pos) (hpay 1 Nat.one_lt_two)

theorem completionEvent_inRange {s : State} {e : Event} (hf : FramerInv s) (hs : StorageInv s)
    (he : completionEvent s = some e) : eventInRange s.cfg e := by
  unfold completionEvent at he
  split at he
  · rename_i hc
    refine dispatchEvent_inRange (fun j hj => hs.isStatus_payByte ?_) he
    have hu : s.cur ≠ .unset := by
      intro hu
      simp [hu, required] at hj
    have := hf.lengths hu
    omega
  · cases he

theorem finalizeEvent_inRange {s : State} {e : Event} (hf : FramerInv s) (hs : StorageInv s)
    (he : finalizeEvent s = some e) : eventInRange s.cfg e := by
  unfold finalizeEvent at he
  split at he
  · obtain rfl := Option.some.inj he
    refine ⟨hf.widxFits, by simp [payBytes], fun b hb => ?_⟩
    obtain ⟨j, hj, rfl⟩ := List.mem_map.1 hb
    exact hs.isStatus_payByte (List.mem_range.1 hj)
  · cases he

/-- Appending an event that is in range. -/
theorem EventInv.finish {s : State} (h : EventInv s) (r : Ret) {e : Option Event}
    (he : ∀ x, e = some x → eventInRange s.cfg x) : EventInv (s.finish r e) := by
  intro x hx
  rcases List.mem_append.1 hx with hx | hx
  · exact h x hx
  · exact he x (by simpa using hx)

theorem EventInv.of_effect {i : Instr} {s t : State} (h : EventInv s) (hf : FramerInv s) (hs : StorageInv s)
    (he : Effect i s t) : EventInv t := by
  cases he with
  | status => exact EventInv.finish (s := s.classify _ _ _) h _ fun _ => finalizeEvent_inRange hf hs
  | accept _ hb hr _ hw =>
    exact EventInv.finish (s := s.acceptData _) h _ fun _ =>
      completionEvent_inRange (hf.acceptData hr _) (hs.acceptData hb hw)
  | reset => exact fun x hx => absurd hx List.not_mem_nil
  | quiet => exact h.finish _ (by simp)
  | drop => exact EventInv.finish (s := s.countDrop) h _ (by simp)
  | push => exact EventInv.finish (s := s.pushByte _) h _ (by simp)
  | pop => exact EventInv.finish (s := s.popByte) h _ (by simp)
  | passPop => exact EventInv.finish (s := s.popByte.setPass _) h _ (by simp)
  | syncW => exact EventInv.finish (s := { s with wrView := _ }) h .none (by simp)
  | syncR => exact EventInv.finish (s := { s with rdView := _ }) h .none (by simp)

/-- Settles O11: only a status byte and an accepted data byte report an event, and both read payload bytes of the
current message only, which are data bytes. -/
theorem everyStepKeepsEventsInRange : Obligations.EveryStepKeepsEventsInRange := fun _ _ hf hs he =>
  step_of_effect (P := fun s => FramerInv s ∧ StorageInv s ∧ EventInv s) (Q := EventInv)
    (fun _ _ _ ⟨hf, hs, he⟩ => ⟨{ hf with }, { hs with }, he⟩) (fun _ _ h => h)
    (fun _ _ _ hx ⟨hf, hs, he⟩ => he.of_effect hf hs hx) ⟨hf, hs, he⟩

/-- Settles O7: each invariant at the reset state. -/
theorem invariantsHoldAtReset : Obligations.InvariantsHoldAtReset := fun c hc =>
  ⟨.resetWith c, .resetWith hc, .resetWith c, fun _ hx => absurd hx List.not_mem_nil⟩

end Sys2Proof.Machine
end

section
/-! The FIFO operations (40_fifo_ops.md), each as a whole state, and the FIFO as a queue of its unread bytes
(20_memory.md R72 to R82), on one operation and over runs. -/

namespace Sys2Proof.Machine

/-! ### The flags as equations between indices -/

theorem fullP_eq_true_iff (s : State) : fullP s = true ↔ idxDist s.cfg s.rdView s.wrIdx = s.cfg.cap := beq_iff_eq

theorem fullP_eq_false_iff (s : State) : fullP s = false ↔ idxDist s.cfg s.rdView s.wrIdx ≠ s.cfg.cap :=
  beq_eq_false_iff_ne

theorem emptyC_eq_true_iff (s : State) : emptyC s = true ↔ s.wrView = s.rdIdx := beq_iff_eq

theorem emptyC_eq_false_iff (s : State) : emptyC s = false ↔ s.wrView ≠ s.rdIdx := beq_eq_false_iff_ne

theorem emptyC_eq_decide (s : State) : emptyC s = decide (s.wrView = s.rdIdx) := by
  rw [Bool.eq_iff_iff, emptyC_eq_true_iff, decide_eq_true_iff]

/-- Presenting a result without an event changes only what is presented. -/
theorem finish_none (s : State) (r : Ret) : s.finish r none = { s with out := { ret := r, evt := none } } := by
  simp [State.finish]

/-! ### Each operation as a whole state -/

/-- Settles O13: the accepting branch of ENQ. -/
theorem enqStoresWhenNotFull : Obligations.EnqStoresWhenNotFull := by
  intro b s h
  rw [exec_enq_ok ((fullP_eq_false_iff s).2 h), finish_none]
  rfl

/-- Settles O14: the rejecting branch of ENQ. -/
theorem enqRejectsAndCountsWhenFull : Obligations.EnqRejectsAndCountsWhenFull := by
  intro b s h
  rw [exec_enq_full ((fullP_eq_true_iff s).2 h), finish_none]
  rfl

/-- Settles O15: a rejected byte writes no cell, an accepted one the cell `slot(wr_idx)`. -/
theorem enqWritesOneSlotOnly : Obligations.EnqWritesOneSlotOnly := by
  intro b s
  cases hf : fullP s with
  | true =>
    exact ⟨_, exec_enq_full hf, fun _ _ => rfl, fun _ _ => rfl, fun h => absurd h (by simp), fun _ => rfl,
      ⟨rfl, rfl, rfl, rfl, rfl⟩, ⟨rfl, rfl, rfl⟩, rfl, rfl, List.append_nil _⟩
  | false =>
    exact ⟨_, exec_enq_ok hf, fun _ ha => Memory.read_write_other _ _ ha, fun h => absurd h (by simp),
      fun _ => Memory.read_write_same _ _ _, fun _ => rfl, ⟨rfl, rfl, rfl, rfl, rfl⟩, ⟨rfl, rfl, rfl⟩, rfl, rfl,
      List.append_nil _⟩

/-- Settles O16: the two branches of DEQ. -/
theorem deqReturnsTheOldestByte : Obligations.DeqReturnsTheOldestByte := by
  refine fun s => ⟨fun h => ?_, fun h => ?_⟩
  · rw [exec_deq_empty ((emptyC_eq_true_iff s).2 h), finish_none]
  · rw [exec_deq_ok ((emptyC_eq_false_iff s).2 h), finish_none]
    rfl

theorem setPass_of_pass_eq {s : State} {p : Pass} (h : s.pass = p) : s.setPass p = s := by
  subst h
  rfl

/-- A DRAIN that finds nothing to dequeue ends its pass in its own step (44_drain_and_boundary.md R200). -/
theorem exec_drain_of_empty {s : State} (hp : s.pass = .idle) (h : s.wrView = s.rdIdx) :
    exec .drain s = .next { s with out := { ret := .drainDone, evt := none } } := by
  rw [exec_drain_empty hp ((emptyC_eq_true_iff s).2 h), setPass_of_pass_eq hp, finish_none]

/-- Settles O18: `empty_c` is the one test of EMPTY, DEQ and DRAIN. -/
theorem emptyTellsWhetherDeqSucceeds : Obligations.EmptyTellsWhetherDeqSucceeds := by
  refine fun s h => ⟨?_, emptyC_eq_decide s, ?_, fun hne => ?_, exec_drain_of_empty⟩
  · rw [← emptyC_eq_decide, ← finish_none]
    rfl
  · rw [← emptyC_eq_true_iff]
    exact emptyC_iff h
  · exact ⟨_, _, exec_deq_ok ((emptyC_eq_false_iff s).2 hne), rfl⟩

theorem syncReaches_eq_false_iff {c : Config} {view idx v : Nat} :
    syncReaches c view idx v = false ↔ c.modulus ≤ v ∨ idxDist c view idx < idxDist c view v := by
  rw [← Bool.not_eq_true, syncReaches_iff]
  omega

/-- Settles O19: SYNC_W is legal exactly for the targets `syncReaches` accepts, and `wr_idx` is one. -/
theorem syncWMovesTheConsumerView : Obligations.SyncWMovesTheConsumerView := by
  refine fun v s => ⟨fun hm hv hd => ?_, fun hm hv => ?_, fun hm hv => ?_, fun hm => if_pos hm⟩
  · rw [exec_syncW_ok hm (syncReaches_iff.2 ⟨hv, hd⟩), finish_none]
  · rw [exec_syncW_ok hm (syncReaches_iff.2 ⟨hv, le_rfl⟩), finish_none]
  · have hr : syncReaches s.cfg s.wrView s.wrIdx v = false := syncReaches_eq_false_iff.2 hv
    simp [exec, execSyncW, hm, hr]

/-- Settles O20: the same for SYNC_R. -/
theorem syncRMovesTheProducerView : Obligations.SyncRMovesTheProducerView := by
  refine fun v s => ⟨fun hm hv hd => ?_, fun hm hv => ?_, fun hm hv => ?_, fun hm => if_pos hm⟩
  · rw [exec_syncR_ok hm (syncReaches_iff.2 ⟨hv, hd⟩), finish_none]
  · rw [exec_syncR_ok hm (syncReaches_iff.2 ⟨hv, le_rfl⟩), finish_none]
  · have hr : syncReaches s.cfg s.rdView s.rdIdx v = false := syncReaches_eq_false_iff.2 hv
    simp [exec, execSyncR, hm, hr]

/-! ### The views and the counter -/

theorem count_eq_zero_iff {s : State} (h : FifoInv s) : count s = 0 ↔ s.wrIdx = s.rdIdx := by
  have := h.rdIdxInRange
  have := idxDist_cases s.cfg h.rdIdxInRange h.wrIdxInRange
  unfold count
  omega

/-- In EXACT mode the producer sees every free cell (40_fifo_ops.md R126). -/
theorem fullP_iff_of_rdView_eq {s : State} (h : s.rdView = s.rdIdx) : fullP s = true ↔ count s = s.cfg.cap := by
  rw [fullP_eq_true_iff, h, count]

/-- Settles O21: of the span the visible part is a part of the unread one, and in EXACT mode they are the same. -/
theorem viewsAreConservative : Obligations.ViewsAreConservative := by
  intro s h
  obtain ⟨freed, visible, hidden, span, hF, hV, hH, hS, hsum, hspan, hcount⟩ := h.parts
  have hcount : count s = visible + hidden := hcount
  have hlen : lenC s = visible := hV
  have hcap : s.cfg.cap = 2 ^ s.cfg.k := rfl
  refine ⟨by omega, by omega, count_eq_zero_iff h, fun hc => ?_, fun hm => ⟨lenC_eq_count h hm, ?_, ?_⟩⟩
  · rw [fullP_eq_true_iff]
    omega
  · rw [← lenC_eq_count h hm]
    exact emptyC_iff h
  · exact fullP_iff_of_rdView_eq (h.exactViews hm).2

/-- A byte row is not an operation of the producer. -/
theorem byteOperation_agent {i : Instr} {b : Byte} (h : i = .decode b ∨ i = decodeByte b) : i.agent = .consumer := by
  rcases h with rfl | rfl
  · rfl
  · exact decodeByte_agent b

theorem ne_reset_of_agent {i : Instr} (h : i.agent = .consumer) : i ≠ .reset := by
  rintro rfl
  cases h

/-- An operation of another agent than the producer rejects no byte. -/
theorem dropCount_unchanged {i : Instr} {n m : Nat} {q : Byte → Prop} (hi : i.agent ≠ .producer) (hr : i ≠ .reset) :
    i ≠ .reset ∧ n = n ∧ ∀ b, i = .enq b → q b → n = m :=
  ⟨hr, rfl, fun _ hb => absurd (congrArg Instr.agent hb) hi⟩

/-- Settles O27: of the effects only the rejected byte and RESET write the counter. -/
theorem dropCountCountsRejectedBytes : Obligations.DropCountCountsRejectedBytes := by
  intro i s t h he
  have hfits := h.dropCountFits
  cases exec_effect he with
  | reset => exact .inl ⟨rfl, rfl⟩
  | @drop _ b hf =>
    simp only [State.finish_dropCount, State.countDrop_dropCount, satInc]
    split
    · exact .inr (.inr ⟨b, rfl, hf, rfl, by omega⟩)
    · exact .inr (.inl ⟨by simp, rfl, fun _ _ _ => by omega⟩)
  | push hf => exact .inr (.inl ⟨by simp, rfl, fun _ _ hf' => absurd (hf.symm.trans hf') (by simp)⟩)
  | quiet hp hr => exact .inr (.inl (dropCount_unchanged hp hr))
  | pop => exact .inr (.inl (dropCount_unchanged (by decide) (by simp)))
  | passPop => exact .inr (.inl (dropCount_unchanged (by decide) (by simp)))
  | syncW => exact .inr (.inl (dropCount_unchanged (by simp [Instr.agent]) (by simp)))
  | syncR => exact .inr (.inl (dropCount_unchanged (by simp [Instr.agent]) (by simp)))
  | status hb =>
    have ha := byteOperation_agent hb
    exact .inr (.inl (dropCount_unchanged (by simp [ha]) (ne_reset_of_agent ha)))
  | accept hb =>
    have ha := byteOperation_agent hb
    exact .inr (.inl (dropCount_unchanged (by simp [ha]) (ne_reset_of_agent ha)))

/-! ### One operation on the queue of unread bytes -/

/-- Settles O22: a push and a pop act on the two ends of the unread bytes, and no other effect touches them. -/
theorem fifoIsAQueueOfItsUnreadBytes : Obligations.FifoIsAQueueOfItsUnreadBytes := by
  refine fun s h => ⟨fun b hf => ?_, fun b hf => ?_, fun he => ?_, fun i t hdeq hdrain hreset hp he => ?_⟩
  · exact ⟨_, exec_enq_ok hf, unread_pushByte h hf b⟩
  · exact ⟨_, exec_enq_full hf, rfl⟩
  · exact ⟨_, _, exec_deq_ok he, rfl, unread_popByte h he⟩
  · cases exec_effect he with
    | quiet => rfl
    | syncW => rfl
    | syncR => rfl
    | status => rfl
    | accept => rfl
    | drop => exact absurd rfl hp
    | push => exact absurd rfl hp
    | pop => exact absurd rfl hdeq
    | passPop => exact absurd rfl hdrain
    | reset => exact absurd rfl hreset

@[simp] theorem length_unread (s : State) : (unread s).length = count s := by simp [unread, bytesFromRead]

/-- As many bytes as there is room for are all accepted, in order (20_memory.md R73). -/
theorem performAll_enq {s : State} {bs : List Byte} (h : FifoInv s) (hv : s.rdView = s.rdIdx)
    (hroom : count s + bs.length ≤ s.cfg.cap) :
    ∃ t, performAll (bs.map Instr.enq) s = .next t ∧ unread t = unread s ++ bs ∧ t.dropCount = s.dropCount ∧
      (bs ≠ [] ∨ s.out.ret = .enqOk → t.out.ret = .enqOk) ∧ t.rdView = t.rdIdx ∧ t.cfg = s.cfg := by
  induction bs generalizing s with
  | nil => exact ⟨s, rfl, by simp, rfl, by simp, hv, rfl⟩
  | cons b bs ih =>
    rw [List.length_cons] at hroom
    have hf : fullP s = false := by
      rw [← Bool.not_eq_true, fullP_iff_of_rdView_eq hv]
      omega
    have hcount : count (s.pushByte b) = count s + 1 := count_pushByte h hf b
    obtain ⟨t, ht, hunread, hdrop, hret, hview, hcfg⟩ :=
      ih (s := (s.pushByte b).finish .enqOk none) ((h.pushByte hf b).finish _ _) hv (by
        show count (s.pushByte b) + bs.length ≤ s.cfg.cap
        omega)
    refine ⟨t, (performAll_cons (exec_enq_ok hf)).trans ht, ?_, hdrop, fun _ => hret (.inr rfl), hview, hcfg⟩
    calc unread t = unread (s.pushByte b) ++ bs := hunread
      _ = unread s ++ b :: bs := by rw [unread_pushByte h hf, List.append_assoc, List.singleton_append]

/-- Settles O24: the bytes with room are accepted one by one, and with `count = C` the exact producer view says full.
-/
theorem noLossBelowCapacity : Obligations.NoLossBelowCapacity := by
  intro s bs h hv hroom
  obtain ⟨t, ht, hunread, hdrop, hret, hview, hcfg⟩ := performAll_enq h hv hroom
  refine ⟨t, ht, hunread, hdrop, fun hne => hret (.inl hne), fun hfull b => ⟨_, exec_enq_full ?_, rfl⟩⟩
  rw [fullP_iff_of_rdView_eq hview, ← length_unread, hunread, hcfg, List.length_append, length_unread]
  exact hfull

/-! ### ENQ and DEQ commute -/

/-- Taking a byte makes no FIFO full (10_state.md R28). -/
theorem fullP_popByte {s : State} (h : FifoInv s) (hf : fullP s = false) (he : emptyC s = false) :
    fullP s.popByte = false := by
  cases hm : s.cfg.syncMode with
  | exact =>
    have hcount := count_popByte h he
    have hspan := h.spanFits
    rw [(h.exactViews hm).2] at hspan
    have hle : count s ≤ s.cfg.cap := hspan
    rw [← Bool.not_eq_true, fullP_iff_of_rdView_eq (if_pos hm), State.popByte_cfg]
    omega
  | lagged => simpa [fullP_eq_false_iff, hm] using hf

/-- An accepted byte makes no FIFO empty. -/
theorem emptyC_pushByte {s : State} (h : FifoInv s) (hf : fullP s = false) (he : emptyC s = false) (b : Byte) :
    emptyC (s.pushByte b) = false := by
  rw [← Bool.not_eq_true, emptyC_iff h] at he
  have := lenC_le_pushByte h hf b
  rw [← Bool.not_eq_true, emptyC_iff (h.pushByte hf b)]
  omega

/-- An accepted byte does not touch the oldest one (20_memory.md R80). -/
theorem oldestByte_pushByte {s : State} (h : FifoInv s) (hf : fullP s = false) (he : emptyC s = false) (b : Byte) :
    oldestByte (s.pushByte b) = oldestByte s := by
  have hpush := unread_pushByte h hf b
  rw [unread_popByte (h.pushByte hf b) (emptyC_pushByte h hf he b), unread_popByte h he, List.cons_append] at hpush
  exact (List.cons.inj hpush).1

/-- Settles O25: the two operations write different fields but for `out`, each leaves the other's test as it is, and
the byte that DEQ returns is not the one that ENQ stores. -/
theorem enqAndDeqCommute : Obligations.EnqAndDeqCommute := by
  intro b s h hf he
  have hold : oldestByte ((s.pushByte b).finish .enqOk none) = oldestByte s := oldestByte_pushByte h hf he b
  refine ⟨_, _, _, _, exec_enq_ok hf, exec_deq_ok (emptyC_pushByte h hf he b), exec_deq_ok he,
    exec_enq_ok (fullP_popByte h hf he), rfl, rfl, ?_, rfl⟩
  simp [hold]

/-! ### EXACT mode -/

/-- The same state with the views no longer tied to the indices. -/
def State.inLaggedMode (s : State) : State := { s with cfg := { s.cfg with syncMode := .lagged } }

theorem pushByte_of_exact {s : State} (h : s.cfg.syncMode = .exact) (b : Byte) :
    s.pushByte b = { s.inLaggedMode.pushByte b with cfg := s.cfg, wrView := inc s.cfg s.wrIdx } := by
  rw [State.pushByte, if_pos h]
  rfl

theorem popByte_of_exact {s : State} (h : s.cfg.syncMode = .exact) :
    s.popByte = { s.inLaggedMode.popByte with cfg := s.cfg, rdView := inc s.cfg s.rdIdx } := by
  rw [State.popByte, if_pos h]
  rfl

/-- A full SYNC_W (40_fifo_ops.md R124). -/
theorem exec_syncW_full {s : State} (hm : s.cfg.syncMode = .lagged) (hw : s.wrIdx < s.cfg.modulus) :
    exec (.syncW s.wrIdx) s = .next (({ s with wrView := s.wrIdx } : State).finish .none none) :=
  exec_syncW_ok hm (syncReaches_iff.2 ⟨hw, le_rfl⟩)

/-- A full SYNC_R (40_fifo_ops.md R125). -/
theorem exec_syncR_full {s : State} (hm : s.cfg.syncMode = .lagged) (hr : s.rdIdx < s.cfg.modulus) :
    exec (.syncR s.rdIdx) s = .next (({ s with rdView := s.rdIdx } : State).finish .none none) :=
  exec_syncR_ok hm (syncReaches_iff.2 ⟨hr, le_rfl⟩)

/-- Settles O26: an operation that is rejected leaves the index where the view is; one that succeeds advances the
index, in EXACT mode with the view, and in LAGGED mode the SYNC step makes up for it. -/
theorem exactModeIsLaggedModeWithFullSync : Obligations.ExactModeIsLaggedModeWithFullSync := by
  intro s h hm
  obtain ⟨hw, hr⟩ := h.exactViews hm
  refine ⟨fun b => ?_, ?_⟩
  · cases hf : fullP s with
    | true =>
      refine ⟨_, _, _, exec_enq_full hf, exec_enq_full (s := s.inLaggedMode) hf, rfl,
        exec_syncW_full rfl h.wrIdxInRange, ?_⟩
      simp only [finish_none, State.countDrop, State.inLaggedMode, ← hw]
    | false =>
      refine ⟨_, _, _, exec_enq_ok hf, exec_enq_ok (s := s.inLaggedMode) hf, rfl,
        exec_syncW_full rfl (inc_lt _ _), ?_⟩
      simp only [finish_none, pushByte_of_exact hm]
      rfl
  · cases he : emptyC s with
    | true =>
      refine ⟨_, _, _, exec_deq_empty he, exec_deq_empty (s := s.inLaggedMode) he, rfl,
        exec_syncR_full rfl h.rdIdxInRange, ?_⟩
      simp only [finish_none, State.inLaggedMode, ← hr]
    | false =>
      refine ⟨_, _, _, exec_deq_ok he, exec_deq_ok (s := s.inLaggedMode) he, rfl,
        exec_syncR_full rfl (inc_lt _ _), ?_⟩
      simp only [finish_none, popByte_of_exact hm]
      rfl

end Sys2Proof.Machine
end

section
/-! What a step takes from the environment's turns, and the history of a run without RESET (20_memory.md R72, R82). -/

namespace Sys2Proof.Machine

/-! ### A step by what `fetch` answers -/

/-- Everything a step can do, with what `fetch` answers: the state with its turn taken is `(fetch s).2`. -/
theorem step_fetch {s t : State} (h : step s = .next t) :
    ((fetch s).1 = .rest ∧ t = (fetch s).2.finish .none none) ∨
    ((fetch s).1 = .passStep ∧ passStep (fetch s).2 = .next t) ∨
    (∃ i, (fetch s).1 = .perform i ∧ exec i (fetch s).2 = .next t) ∨
    (∃ i u, (fetch s).1 = .performQuietly i ∧ exec i (fetch s).2 = .next u ∧
      t = { u with out := { u.out with ret := .none } }) := by
  unfold step at h
  split at h <;> rename_i s' hf <;> rw [hf]
  · exact .inl ⟨rfl, (Host.Outcome.next.inj h).symm⟩
  · exact .inr (.inl ⟨rfl, h⟩)
  · exact .inr (.inr (.inl ⟨_, rfl, h⟩))
  · rename_i i
    cases hx : exec i s' with
    | next u =>
      rw [hx] at h
      exact .inr (.inr (.inr ⟨i, u, rfl, hx, (Host.Outcome.next.inj h).symm⟩))
    | fault f => rw [hx] at h; cases h
    | refused r => rw [hx] at h; cases h
  · cases h

/-- No operation touches the turns. -/
theorem Effect.turns {i : Instr} {s t : State} (h : Effect i s t) : t.turns = s.turns := by cases h <;> rfl

theorem step_turns {s t : State} (h : step s = .next t) : t.turns = (fetch s).2.turns := by
  obtain ⟨-, rfl⟩ | ⟨-, hx⟩ | ⟨i, -, hx⟩ | ⟨i, u, -, hx, rfl⟩ := step_fetch h
  · rfl
  · obtain ⟨-, rfl⟩ | ⟨-, hx⟩ | ⟨b, -, hx⟩ := passStep_cases hx
    · rfl
    · exact (exec_effect hx).turns
    · exact (exec_effect hx).turns
  · exact (exec_effect hx).turns
  · exact (exec_effect hx).turns

/-! ### Turns without RESET -/

/-- No turn of the state may perform a RESET. -/
def NoReset (s : State) : Prop := ∀ x ∈ s.turns, Turn.mayReset x = false

/-- Strobes without `rst` request no RESET. -/
theorem decodePorts_ne_reset {p : PortIn} {f : Bool} {l : List Instr} (hp : p.rst = false)
    (h : decodePorts p f = .ok l) : ∀ i ∈ l, i ≠ .reset := by
  have hrequest : ∀ i, i ∈ p.producerRequests ∨ i ∈ p.consumerRequests → i ≠ .reset := by
    rintro i hi rfl
    simp [PortIn.producerRequests, PortIn.consumerRequests] at hi
  intro i hi
  apply hrequest
  simp only [decodePorts, hp, Bool.false_eq_true, if_false] at h
  split at h
  · cases h
  · split at h <;> cases h
    · exact List.mem_append.1 hi
    · exact (List.mem_append.1 hi).symm

/-- A call is refused or performed, and takes no further turn. -/
theorem fetchCall_cases (a : Agent) (i : Instr) (s : State) :
    (∃ r, fetchCall a i s = (.refuse r, s)) ∨ fetchCall a i s = (.perform i, s) := by
  unfold fetchCall
  split
  · exact .inl ⟨_, rfl⟩
  · exact .inr rfl

theorem fetchPass_cases (s : State) : fetchPass s = (.rest, s) ∨ fetchPass s = (.passStep, s) := by
  unfold fetchPass
  split
  · exact .inl rfl
  · exact .inr rfl

/-- What `fetch` answers performs no RESET and leaves none among the turns. -/
def Calm (r : Action × State) : Prop := r.1 ≠ .perform .reset ∧ NoReset r.2

theorem calm_fetchCall {a : Agent} {i : Instr} {s : State} (hi : i ≠ .reset) (hs : NoReset s) :
    Calm (fetchCall a i s) := by
  rcases fetchCall_cases a i s with ⟨r, h⟩ | h <;> rw [h]
  · exact ⟨by simp, hs⟩
  · exact ⟨by simpa using hi, hs⟩

theorem calm_fetchPass {s : State} (hs : NoReset s) : Calm (fetchPass s) := by
  rcases fetchPass_cases s with h | h <;> rw [h] <;> exact ⟨by simp, hs⟩

theorem decodeByte_ne_reset (b : Byte) : decodeByte b ≠ .reset := ne_reset_of_agent (decodeByte_agent b)

theorem calm_fetchPins {p : PortIn} {f : Bool} {s : State} (hp : p.rst = false) (hs : NoReset s) :
    Calm (fetchPins (decodePorts p f) s) := by
  unfold fetchPins
  split
  · exact ⟨by simp, hs⟩
  · exact ⟨by simp, hs⟩
  · rename_i i is hports
    have hne := decodePorts_ne_reset hp hports
    refine calm_fetchCall (hne i List.mem_cons_self) fun x hx => ?_
    rcases List.mem_append.1 hx with hx | hx
    · obtain ⟨j, hj, rfl⟩ := List.mem_map.1 hx
      simpa [Turn.mayReset] using hne j (List.mem_cons_of_mem _ hj)
    · exact hs x hx

theorem NoReset.calm_fetch {s : State} (h : NoReset s) : Calm (fetch s) := by
  have rest : ∀ {x : Turn} {ts : List Turn}, s.turns = x :: ts →
      Turn.mayReset x = false ∧ NoReset { s with turns := ts } := fun hts =>
    ⟨h _ (hts ▸ List.mem_cons_self), fun y hy => h y (hts ▸ List.mem_cons_of_mem _ hy)⟩
  unfold fetch
  split <;> rename_i hts
  · exact calm_fetchPass h
  · exact calm_fetchCall (decodeByte_ne_reset _) (rest hts).2
  · exact calm_fetchCall (by simpa [Turn.mayReset] using (rest hts).1) (rest hts).2
  · exact ⟨by simp, (rest hts).2⟩
  · exact calm_fetchCall (by simp) (rest hts).2
  · exact calm_fetchPins (rest hts).1 (rest hts).2
  · exact calm_fetchPass (rest hts).2

theorem NoReset.step {s t : State} (h : NoReset s) (hs : step s = .next t) : NoReset t := by
  have hturns := step_turns hs
  exact fun x hx => h.calm_fetch.2 x (hturns ▸ hx)

/-- The only operation whose result is discarded is the ENQ of `onByteReceived` (44_drain_and_boundary.md R202). -/
theorem fetch_performQuietly {s : State} {i : Instr} (h : (fetch s).1 = .performQuietly i) : ∃ b, i = .enq b := by
  have hcall : ∀ a j u, (fetchCall a j u).1 ≠ .performQuietly i := by
    intro a j u
    rcases fetchCall_cases a j u with ⟨r, hr⟩ | hr <;> simp [hr]
  have hpass : ∀ u, (fetchPass u).1 ≠ .performQuietly i := by
    intro u
    rcases fetchPass_cases u with hr | hr <;> simp [hr]
  unfold fetch at h
  split at h
  · exact absurd h (hpass _)
  · exact absurd h (hcall _ _ _)
  · exact absurd h (hcall _ _ _)
  · exact ⟨_, by simpa using h.symm⟩
  · exact absurd h (hcall _ _ _)
  · unfold fetchPins at h
    split at h
    · cases h
    · cases h
    · exact absurd h (hcall _ _ _)
  · exact absurd h (hpass _)

/-! ### The bytes of one operation -/

/-- The byte an operation accepts, as `acceptedBy` says it of a step. -/
def acceptedByOperation (i : Instr) (s t : State) : List Byte :=
  match i with
  | .enq b => if t.wrIdx = s.wrIdx then [] else [b]
  | _ => []

theorem acceptedBy_of_perform {s t : State} {i : Instr} (h : (fetch s).1 = .perform i) :
    acceptedBy s t = acceptedByOperation i s t := by
  rw [acceptedBy, h]
  cases i <;> rfl

theorem acceptedBy_of_performQuietly {s t : State} {i : Instr} (h : (fetch s).1 = .performQuietly i) :
    acceptedBy s t = acceptedByOperation i s t := by
  rw [acceptedBy, h]
  cases i <;> rfl

theorem acceptedByOperation_of_ne_producer {i : Instr} (h : i.agent ≠ .producer) (s t : State) :
    acceptedByOperation i s t = [] := by
  unfold acceptedByOperation
  split
  · exact absurd rfl h
  · rfl

theorem takenBy_finish {s : State} {r : Ret} {e : Option Event} (h : ∀ b, r ≠ .deqByte b ∧ r ≠ .drainByte b) :
    takenBy (s.finish r e) = [] := by
  unfold takenBy
  split <;> rename_i b hb
  · exact absurd hb (h b).1
  · exact absurd hb (h b).2
  · rfl

theorem inc_ne_self {c : Config} {i : Nat} (h : i < c.modulus) : inc c i ≠ i := by
  have := inc_cases c h
  have := modulus_eq c
  have := cap_pos c
  omega

/-- What an operation takes, then what is unread after it, is what was unread before, then what it accepts. -/
theorem Effect.byteOrder {i : Instr} {s t : State} (h : Effect i s t) (hs : FifoInv s) (hi : i ≠ .reset) :
    takenBy t ++ unread t = unread s ++ acceptedByOperation i s t := by
  have keeps : ∀ {r : Ret} {e : Option Event} {u : State}, (∀ b, r ≠ .deqByte b ∧ r ≠ .drainByte b) →
      i.agent ≠ .producer → unread u = unread s →
      takenBy (u.finish r e) ++ unread (u.finish r e) = unread s ++ acceptedByOperation i s (u.finish r e) := by
    intro r e u hr ha hu
    rw [takenBy_finish hr, acceptedByOperation_of_ne_producer ha, List.nil_append, List.append_nil]
    exact hu
  cases h with
  | quiet hp _ hq => exact keeps hq hp rfl
  | syncW => exact keeps (by simp) (by simp [Instr.agent]) rfl
  | syncR => exact keeps (by simp) (by simp [Instr.agent]) rfl
  | status hb => exact keeps (by simp) (by simp [byteOperation_agent hb]) rfl
  | accept hb => exact keeps (by simp) (by simp [byteOperation_agent hb]) rfl
  | drop => simp [acceptedByOperation, takenBy, unread, bytesFromRead, count, memByte]
  | @push _ b hf =>
    have hne := inc_ne_self hs.wrIdxInRange
    calc [] ++ unread (s.pushByte b) = unread s ++ [b] := unread_pushByte hs hf b
      _ = _ := by simp [acceptedByOperation, hne]
  | pop he => exact (unread_popByte hs he).symm.trans (List.append_nil _).symm
  | passPop _ he => exact (unread_popByte hs he).symm.trans (List.append_nil _).symm
  | reset => exact absurd rfl hi

/-! ### One step, and runs -/

theorem step_byteOrder {s t : State} (h : step s = .next t) (hs : FifoInv s) (hr : NoReset s) :
    takenBy t ++ unread t = unread s ++ acceptedBy s t := by
  obtain ⟨ts, hts⟩ := fetch_state s
  have hfifo : ∀ p, FifoInv { (fetch s).2 with pass := p } := fun _ => hts ▸ { hs with }
  have hunread : ∀ p, unread { (fetch s).2 with pass := p } = unread s := fun _ => by rw [hts]; rfl
  obtain ⟨ha, rfl⟩ | ⟨ha, hx⟩ | ⟨i, ha, hx⟩ | ⟨i, u, ha, hx, rfl⟩ := step_fetch h
  · have hacc : acceptedBy s ((fetch s).2.finish .none none) = [] := by rw [acceptedBy, ha]
    rw [hacc, takenBy_finish (by simp), List.append_nil]
    exact hunread (fetch s).2.pass
  · have hacc : acceptedBy s t = [] := by rw [acceptedBy, ha]
    rw [hacc]
    obtain ⟨-, rfl⟩ | ⟨-, hx⟩ | ⟨b, -, hx⟩ := passStep_cases hx
    · rw [takenBy_finish (by simp), List.append_nil]
      exact hunread (fetch s).2.pass
    · exact ((exec_effect hx).byteOrder (hfifo _) (by simp)).trans (by rw [hunread]; rfl)
    · exact ((exec_effect hx).byteOrder (hfifo _) (by simp)).trans (by rw [hunread]; rfl)
  · have hi : i ≠ .reset := fun hi => hr.calm_fetch.1 (hi ▸ ha)
    rw [acceptedBy_of_perform ha, (exec_effect hx).byteOrder (hfifo _) hi, hts]
    rfl
  · obtain ⟨b, rfl⟩ := fetch_performQuietly ha
    have horder := (exec_effect hx).byteOrder (hfifo _) (by simp)
    have htaken : takenBy u = [] := by
      obtain ⟨v, hv, hret⟩ := exec_enq_completes b (fetch s).2
      obtain rfl := Host.Outcome.next.inj (hx.symm.trans hv)
      rcases hret with hret | hret <;> simp [takenBy, hret]
    rw [htaken] at horder
    rw [acceptedBy_of_performQuietly ha]
    exact horder.trans (by rw [hts]; rfl)

/-- The byte order over a run, with the invariant that the run keeps. -/
theorem run_byteOrder {n : Nat} {s t : State} (hs : FifoInv s) (hr : NoReset s)
    (h : Host.Core.run Sys2Proof.core n s = .next t) :
    FifoInv t ∧ takenIn n s ++ unread t = unread s ++ acceptedIn n s := by
  induction n generalizing s with
  | zero =>
    obtain rfl := Host.Outcome.next.inj h
    exact ⟨hs, (List.append_nil _).symm⟩
  | succ n ih =>
    obtain ⟨u, hu, hrun⟩ := run_succ_cases h
    obtain ⟨ht, horder⟩ := ih (everyStepKeepsTheFifoInvariant s u hs hu) (hr.step hu) hrun
    refine ⟨ht, ?_⟩
    calc takenIn (n + 1) s ++ unread t = takenBy u ++ (takenIn n u ++ unread t) := by
          rw [takenIn, hu, List.append_assoc]
      _ = (takenBy u ++ unread u) ++ acceptedIn n u := by rw [horder, List.append_assoc]
      _ = unread s ++ (acceptedBy s u ++ acceptedIn n u) := by rw [step_byteOrder hu hs hr, List.append_assoc]
      _ = unread s ++ acceptedIn (n + 1) s := by rw [acceptedIn, hu]

theorem unread_eq_nil_of_runOver {s : State} (h : FifoInv s) (ho : runOver s = true) : unread s = [] := by
  have hidx : s.wrIdx = s.rdIdx := by
    simp only [runOver, Bool.and_eq_true, beq_iff_eq] at ho
    obtain ⟨⟨⟨-, hidx⟩, -⟩, -⟩ := ho
    exact hidx
  rw [← List.length_eq_zero_iff, length_unread]
  exact (count_eq_zero_iff h).2 hidx

/-- Settles O23: by induction on the steps, each of which keeps the order; at the end of a run nothing is unread. -/
theorem runsKeepTheByteOrder : Obligations.RunsKeepTheByteOrder := by
  intro n s t hs hr h
  obtain ⟨ht, horder⟩ := run_byteOrder hs hr h
  refine ⟨horder, fun ho => ?_⟩
  rwa [unread_eq_nil_of_runOver ht ho, List.append_nil] at horder

end Sys2Proof.Machine
end

section
/-! Progress over unending executions (20_memory.md R71 (e), 40_fifo_ops.md R124 to R126, 44_drain_and_boundary.md
R201): a view that is treated fairly goes forward without bound until it meets its index, and a drain pass has a
measure that the consumer's steps take down and no other step takes up. -/

namespace Sys2Proof.Machine

/-! ### Two facts about sequences of numbers -/

section

variable {c : Config} {view index : Nat → Nat}

/-- A view that never loses ground to its index is never further behind than what it was less what it has gone. -/
theorem behind_le_advance
    (hground : ∀ n, idxDist c (view n) (index n) ≤
      idxDist c (view n) (view (n + 1)) + idxDist c (view (n + 1)) (index (n + 1))) (n k : Nat) :
    idxDist c (view n) (index n) ≤ advanceIn c view n k + idxDist c (view (n + k)) (index (n + k)) := by
  induction k with
  | zero => exact Nat.le_add_left _ _
  | succ k ih =>
    have hk := hground (n + k)
    rw [advanceIn, ← Nat.add_assoc n k 1]
    omega

/-- A view that moves again and again goes forward without bound. -/
theorem advance_unbounded (hrange : ∀ n, view n < c.modulus) {n : Nat}
    (hmoves : ∀ k, n ≤ k → ∃ m, k ≤ m ∧ view (m + 1) ≠ view m) (d : Nat) : ∃ k, d ≤ advanceIn c view n k := by
  have hmono : Monotone (advanceIn c view n) := monotone_nat_of_le_succ fun k => Nat.le_add_right _ _
  induction d with
  | zero => exact ⟨0, Nat.zero_le _⟩
  | succ d ih =>
    obtain ⟨k, hk⟩ := ih
    obtain ⟨m, hm, hmove⟩ := hmoves (n + k) (Nat.le_add_right n k)
    obtain ⟨j, rfl⟩ := Nat.exists_eq_add_of_le ((Nat.le_add_right n k).trans hm)
    have hle := hmono (Nat.le_of_add_le_add_left hm)
    have hlt := hrange (n + j)
    have hstep := idxDist_cases c hlt (hrange (n + j + 1))
    refine ⟨j + 1, ?_⟩
    rw [advanceIn]
    omega

/-- A view that never loses ground to its index, and moves again and again while it differs from it, makes up for what
it was behind. -/
theorem exists_advance (hrange : ∀ n, view n < c.modulus ∧ index n < c.modulus)
    (hground : ∀ n, idxDist c (view n) (index n) ≤
      idxDist c (view n) (view (n + 1)) + idxDist c (view (n + 1)) (index (n + 1)))
    (hmoves : ∀ n, (∀ m, n ≤ m → view m ≠ index m) → ∃ m, n ≤ m ∧ view (m + 1) ≠ view m) (n : Nat) :
    ∃ k, idxDist c (view n) (index n) ≤ advanceIn c view n k := by
  by_cases hmeet : ∃ m, n ≤ m ∧ view m = index m
  · obtain ⟨m, hm, heq⟩ := hmeet
    obtain ⟨k, rfl⟩ := Nat.exists_eq_add_of_le hm
    have hk := behind_le_advance hground n k
    rw [heq, idxDist_self c (hrange _).2] at hk
    exact ⟨k, hk⟩
  · have hdiffer : ∀ m, n ≤ m → view m ≠ index m := fun m hm heq => hmeet ⟨m, hm, heq⟩
    exact advance_unbounded (fun m => (hrange m).1) (fun k hk => hmoves k fun m hm => hdiffer m (hk.trans hm)) _

end

/-- No sequence of natural numbers never rises and falls again and again. -/
theorem not_falls_for_ever {f : Nat → Nat} {n : Nat} (hle : ∀ m, n ≤ m → f (m + 1) ≤ f m)
    (hlt : ∀ m, n ≤ m → ∃ k, m ≤ k ∧ f (k + 1) < f k) : False := by
  have hanti : ∀ {m k}, n ≤ m → m ≤ k → f k ≤ f m := by
    intro m k hm hk
    induction k, hk using Nat.le_induction with
    | base => exact le_rfl
    | succ k hk ih => exact (hle k (hm.trans hk)).trans ih
  have hbelow : ∀ w m, n ≤ m → w ≤ f m := by
    intro w
    induction w with
    | zero => exact fun _ _ => Nat.zero_le _
    | succ w ih =>
      intro m hm
      obtain ⟨k, hk, hfall⟩ := hlt m hm
      have hw := ih (k + 1) (by omega)
      have := hanti hm hk
      omega
  have := hbelow (f n + 1) n le_rfl
  omega

/-! ### What an operation does to the views -/

/-- No operation writes the parameters. -/
theorem Effect.cfg {i : Instr} {s t : State} (h : Effect i s t) : t.cfg = s.cfg := by cases h <;> rfl

/-- `wr_view` never loses ground to `wr_idx`: SYNC_W moves it on the way there, ENQ moves the index away. -/
theorem Effect.wrView_ground {i : Instr} {s t : State} (h : Effect i s t) (hs : FifoInv s) (hi : i ≠ .reset) :
    idxDist s.cfg s.wrView s.wrIdx ≤ idxDist s.cfg s.wrView t.wrView + idxDist s.cfg t.wrView t.wrIdx := by
  cases h with
  | @push _ b hf =>
    cases hm : s.cfg.syncMode with
    | exact =>
      rw [(hs.exactViews hm).1, idxDist_self s.cfg hs.wrIdxInRange]
      exact Nat.zero_le _
    | lagged =>
      have hv : (s.pushByte b).wrView = s.wrView := if_neg (by simp [hm])
      have := hs.viewsInOrder
      have := hs.spanFits
      have := modulus_eq s.cfg
      have := (fullP_eq_false_iff s).1 hf
      have hinc := idxDist_inc_right hs.wrViewInRange hs.wrIdxInRange (by omega)
      simp only [State.finish_wrView, State.finish_wrIdx, State.pushByte_wrIdx, hv]
      omega
  | syncW _ hv hd => exact (idxDist_split hs.wrViewInRange hv hs.wrIdxInRange hd).ge
  | reset => exact absurd rfl hi
  | quiet => exact Nat.le_add_left _ _
  | drop => exact Nat.le_add_left _ _
  | pop => exact Nat.le_add_left _ _
  | passPop => exact Nat.le_add_left _ _
  | syncR => exact Nat.le_add_left _ _
  | status => exact Nat.le_add_left _ _
  | accept => exact Nat.le_add_left _ _

/-- Dequeuing moves `rd_idx` away from `rd_view`, or both together. -/
theorem rdView_ground_popByte {s : State} (hs : FifoInv s) (he : emptyC s = false) :
    idxDist s.cfg s.rdView s.rdIdx ≤
      idxDist s.cfg s.rdView s.popByte.rdView + idxDist s.cfg s.popByte.rdView s.popByte.rdIdx := by
  cases hm : s.cfg.syncMode with
  | exact =>
    rw [(hs.exactViews hm).2, idxDist_self s.cfg hs.rdIdxInRange]
    exact Nat.zero_le _
  | lagged =>
    have hv : s.popByte.rdView = s.rdView := if_neg (by simp [hm])
    have := hs.viewsInOrder
    have := hs.spanFits
    have := modulus_eq s.cfg
    have hvisible : idxDist s.cfg s.rdIdx s.wrView ≠ 0 := fun h0 => by simp [(emptyC_iff hs).2 h0] at he
    have hinc := idxDist_inc_right hs.rdViewInRange hs.rdIdxInRange (by omega)
    rw [hv, State.popByte_rdIdx]
    omega

/-- `rd_view` never loses ground to `rd_idx`. -/
theorem Effect.rdView_ground {i : Instr} {s t : State} (h : Effect i s t) (hs : FifoInv s) (hi : i ≠ .reset) :
    idxDist s.cfg s.rdView s.rdIdx ≤ idxDist s.cfg s.rdView t.rdView + idxDist s.cfg t.rdView t.rdIdx := by
  cases h with
  | pop he => exact rdView_ground_popByte hs he
  | passPop _ he => exact rdView_ground_popByte hs he
  | syncR _ hv hd => exact (idxDist_split hs.rdViewInRange hv hs.rdIdxInRange hd).ge
  | reset => exact absurd rfl hi
  | quiet => exact Nat.le_add_left _ _
  | drop => exact Nat.le_add_left _ _
  | push => exact Nat.le_add_left _ _
  | syncW => exact Nat.le_add_left _ _
  | status => exact Nat.le_add_left _ _
  | accept => exact Nat.le_add_left _ _

/-! ### The work left in a drain pass -/

/-- A pass does a DEQ and a DECODE for each byte: twice the unread bytes, and one more with a byte in hand. -/
def passWork (s : State) : Nat :=
  2 * count s + match s.pass with
    | .atDecode _ => 1
    | _ => 0

/-- An operation other than DRAIN and RESET leaves the pass where it is. -/
theorem Effect.pass {i : Instr} {s t : State} (h : Effect i s t) (hr : i ≠ .reset) (hd : i ≠ .drain) :
    t.pass = s.pass := by
  cases h with
  | reset => exact absurd rfl hr
  | passPop => exact absurd rfl hd
  | _ => rfl

/-- When no byte is accepted, no operation adds to the unread bytes. -/
theorem Effect.count_le {i : Instr} {s t : State} (h : Effect i s t) (hs : FifoInv s) (hr : i ≠ .reset)
    (hw : t.wrIdx = s.wrIdx) : count t ≤ count s := by
  cases h with
  | reset => exact absurd rfl hr
  | push => exact absurd hw (inc_ne_self hs.wrIdxInRange)
  | pop he => exact (count_popByte hs he).le.trans' (Nat.le_succ _)
  | passPop _ he => exact (count_popByte hs he).le.trans' (Nat.le_succ _)
  | _ => exact le_rfl

/-- A step of the pass ends it or takes from its work. -/
theorem passWork_passStep {s t : State} (h : passStep s = .next t) (hs : FifoInv s) (hp : s.pass ≠ .idle) :
    t.pass = .idle ∨ passWork t < passWork s := by
  unfold passStep at h
  split at h <;> rename_i hpass
  · exact absurd hpass hp
  · unfold passDeq at h
    split at h <;> obtain rfl := Host.Outcome.next.inj h
    · exact .inl rfl
    · have hcount := count_popByte hs (Bool.eq_false_iff.2 ‹¬_›)
      have hwork : passWork s = 2 * count s := by simp [passWork, hpass]
      right
      rw [hwork]
      show 2 * count s.popByte + 1 < 2 * count s
      omega
  · obtain ⟨hfifo, hdriver⟩ := decodeStep_frame h
    have hcount : count t = count s := by
      rw [count, hfifo.cfg, hfifo.rdIdx, hfifo.wrIdx]
      rfl
    have hp' : t.pass = .atDeq := hdriver.pass
    exact .inr (by simp [passWork, hpass, hp', hcount])

/-- DRAIN is not re-entrant (70_reset_and_hazards.md R256). -/
theorem exec_drain_refused {s : State} (h : s.pass ≠ .idle) : exec .drain s = .refused .drainNotReentrant := by
  cases hp : s.pass with
  | idle => exact absurd hp h
  | atDeq => simp [exec, execDrain, hp]
  | atDecode b => simp [exec, execDrain, hp]

/-- During a pass an operation adds nothing to its work, when it accepts no byte. -/
theorem passWork_exec_le {i : Instr} {s t : State} (h : exec i s = .next t) (hs : FifoInv s) (hp : s.pass ≠ .idle)
    (hr : i ≠ .reset) (hw : t.wrIdx = s.wrIdx) : passWork t ≤ passWork s := by
  have hdrain : i ≠ .drain := by
    rintro rfl
    cases (exec_drain_refused hp).symm.trans h
  have hcount := (exec_effect h).count_le hs hr hw
  rw [passWork, passWork, (exec_effect h).pass hr hdrain]
  omega

/-- During a pass, when a step accepts no byte, the pass's own step ends it or takes from its work, and every other
step adds nothing to it. -/
theorem passWork_step {s t : State} (h : step s = .next t) (hs : FifoInv s) (hp : s.pass ≠ .idle)
    (hr : (fetch s).1 ≠ .perform .reset) (hw : t.wrIdx = s.wrIdx) :
    ((fetch s).1 = .passStep → t.pass = .idle ∨ passWork t < passWork s) ∧
    ((fetch s).1 ≠ .passStep → passWork t ≤ passWork s) := by
  obtain ⟨ts, hts⟩ := fetch_state s
  have hs' : FifoInv (fetch s).2 := hts ▸ { hs with }
  have hp' : (fetch s).2.pass ≠ .idle := by rwa [hts]
  have hw' : t.wrIdx = (fetch s).2.wrIdx := by rwa [hts]
  have hwork : passWork (fetch s).2 = passWork s := by rw [hts]; rfl
  rw [← hwork]
  obtain ⟨ha, rfl⟩ | ⟨ha, hx⟩ | ⟨i, ha, hx⟩ | ⟨i, u, ha, hx, rfl⟩ := step_fetch h <;> rw [ha]
  · exact ⟨by simp, fun _ => le_rfl⟩
  · exact ⟨fun _ => passWork_passStep hx hs' hp', by simp⟩
  · exact ⟨by simp, fun _ => passWork_exec_le hx hs' hp' (fun hi => hr (hi ▸ ha)) hw'⟩
  · obtain ⟨b, rfl⟩ := fetch_performQuietly ha
    exact ⟨by simp, fun _ => passWork_exec_le (t := u) hx hs' hp' (by simp) hw'⟩

/-! ### Unending executions -/

/-- Everything a step that performs no RESET can do. -/
theorem step_effect {s t : State} (h : step s = .next t) (hr : (fetch s).1 ≠ .perform .reset) :
    ∃ i ts p u, i ≠ .reset ∧ Effect i { s with turns := ts, pass := p } u ∧
      (t = u ∨ t = { u with out := { u.out with ret := .none } }) := by
  obtain ⟨ts, hts⟩ := fetch_state s
  obtain ⟨-, rfl⟩ | ⟨-, hx⟩ | ⟨i, ha, hx⟩ | ⟨i, u, ha, hx, rfl⟩ := step_fetch h <;> rw [hts] at *
  · exact ⟨.len, ts, s.pass, _, by simp, .quiet (by decide) (by simp) (by simp), .inl rfl⟩
  · obtain ⟨-, rfl⟩ | ⟨-, hx⟩ | ⟨b, -, hx⟩ := passStep_cases hx
    · exact ⟨.len, ts, s.pass, _, by simp, .quiet (by decide) (by simp) (by simp), .inl rfl⟩
    · exact ⟨.drain, ts, .idle, t, by simp, exec_effect hx, .inl rfl⟩
    · exact ⟨.decode b, ts, .atDeq, t, by simp, exec_effect hx, .inl rfl⟩
  · exact ⟨i, ts, s.pass, t, fun hi => hr (hi ▸ ha), exec_effect hx, .inl rfl⟩
  · obtain ⟨b, rfl⟩ := fetch_performQuietly ha
    exact ⟨.enq b, ts, s.pass, u, by simp, exec_effect hx, .inr rfl⟩

/-- A SYNC_W step that completes leaves the view at its target. -/
theorem wrView_of_exec_syncW {v : Nat} {s t : State} (h : exec (.syncW v) s = .next t) : t.wrView = v := by
  simp only [exec, execSyncW] at h
  split at h
  · cases h
  · split at h <;> cases h
    rfl

/-- A SYNC_R step that completes leaves the view at its target. -/
theorem rdView_of_exec_syncR {v : Nat} {s t : State} (h : exec (.syncR v) s = .next t) : t.rdView = v := by
  simp only [exec, execSyncR] at h
  split at h
  · cases h
  · split at h <;> cases h
    rfl

section

variable {run : Nat → State} {act : Nat → Action} (hexec : IsExecution run act)

include hexec

/-- The state in which an execution takes a step: the one before it, with other turns. -/
theorem IsExecution.step_from (n : Nat) : ∃ s ts, s = { run n with turns := ts } ∧ act n = (fetch s).1 ∧
    step s = .next (run (n + 1)) := by
  obtain ⟨new, hact, hstep⟩ := hexec n
  exact ⟨_, _, rfl, hact, hstep⟩

theorem IsExecution.fifoInv (h0 : FifoInv (run 0)) (n : Nat) : FifoInv (run n) := by
  induction n with
  | zero => exact h0
  | succ n ih =>
    obtain ⟨s, ts, hs, -, hstep⟩ := hexec.step_from n
    exact everyStepKeepsTheFifoInvariant s _ (hs ▸ { ih with }) hstep

/-- The operation that an execution's step performs. -/
theorem IsExecution.exec_of_perform {n : Nat} {i : Instr} (ha : act n = .perform i) :
    ∃ s, exec i s = .next (run (n + 1)) := by
  obtain ⟨s, ts, -, hact, hstep⟩ := hexec.step_from n
  have hf := hact.symm.trans ha
  obtain ⟨hr, -⟩ | ⟨hr, -⟩ | ⟨j, hr, hx⟩ | ⟨j, u, hr, -⟩ := step_fetch hstep <;> cases hf.symm.trans hr
  exact ⟨_, hx⟩

variable (hcalm : ∀ n, act n ≠ .perform .reset)

include hcalm

/-- Each step of an execution without RESET has the effect of one operation. -/
theorem IsExecution.effect (n : Nat) : ∃ i ts p u, i ≠ .reset ∧ Effect i { run n with turns := ts, pass := p } u ∧
    (run (n + 1) = u ∨ run (n + 1) = { u with out := { u.out with ret := .none } }) := by
  obtain ⟨s, ts, hs, hact, hstep⟩ := hexec.step_from n
  obtain ⟨i, ts', p, u, h⟩ := step_effect hstep (hact ▸ hcalm n)
  rw [hs] at h
  exact ⟨i, ts', p, u, h⟩

theorem IsExecution.cfg (n : Nat) : (run n).cfg = (run 0).cfg := by
  induction n with
  | zero => rfl
  | succ n ih =>
    obtain ⟨i, ts, p, u, -, he, hu | hu⟩ := hexec.effect hcalm n <;> rw [hu] <;> exact he.cfg.trans ih

variable (h0 : FifoInv (run 0))

include h0

/-- 40_fifo_ops.md R124 over time. -/
theorem IsExecution.exists_wrView_advance (hfair : SyncFair run act) (n : Nat) :
    ∃ k, idxDist (run 0).cfg (run n).wrView (run n).wrIdx ≤ advanceIn (run 0).cfg (fun j => (run j).wrView) n k := by
  refine exists_advance (view := fun j => (run j).wrView) (index := fun j => (run j).wrIdx)
    (fun m => ?_) (fun m => ?_) (fun m hm => ?_) n
  · have hm := hexec.fifoInv h0 m
    rw [← hexec.cfg hcalm m]
    exact ⟨hm.wrViewInRange, hm.wrIdxInRange⟩
  · rw [← hexec.cfg hcalm m]
    obtain ⟨i, ts, p, u, hi, he, hu | hu⟩ := hexec.effect hcalm m <;> rw [hu] <;>
      exact he.wrView_ground { hexec.fifoInv h0 m with } hi
  · obtain ⟨j, v, hj, ha, hv⟩ := hfair.1 m hm
    obtain ⟨s, hx⟩ := hexec.exec_of_perform ha
    exact ⟨j, hj, by rwa [wrView_of_exec_syncW hx]⟩

/-- 40_fifo_ops.md R125 over time. -/
theorem IsExecution.exists_rdView_advance (hfair : SyncFair run act) (n : Nat) :
    ∃ k, idxDist (run 0).cfg (run n).rdView (run n).rdIdx ≤ advanceIn (run 0).cfg (fun j => (run j).rdView) n k := by
  refine exists_advance (view := fun j => (run j).rdView) (index := fun j => (run j).rdIdx)
    (fun m => ?_) (fun m => ?_) (fun m hm => ?_) n
  · have hm := hexec.fifoInv h0 m
    rw [← hexec.cfg hcalm m]
    exact ⟨hm.rdViewInRange, hm.rdIdxInRange⟩
  · rw [← hexec.cfg hcalm m]
    obtain ⟨i, ts, p, u, hi, he, hu | hu⟩ := hexec.effect hcalm m <;> rw [hu] <;>
      exact he.rdView_ground { hexec.fifoInv h0 m with } hi
  · obtain ⟨j, v, hj, ha, hv⟩ := hfair.2 m hm
    obtain ⟨s, hx⟩ := hexec.exec_of_perform ha
    exact ⟨j, hj, by rwa [rdView_of_exec_syncR hx]⟩

/-- During a pass, once no more bytes are accepted, no step adds to the work of the pass, and the pass's own steps take
from it or end the pass. -/
theorem IsExecution.passWork_succ {n : Nat} (hp : (run n).pass ≠ .idle) (hw : (run (n + 1)).wrIdx = (run n).wrIdx) :
    (act n = .passStep → (run (n + 1)).pass = .idle ∨ passWork (run (n + 1)) < passWork (run n)) ∧
    (act n ≠ .passStep → passWork (run (n + 1)) ≤ passWork (run n)) := by
  obtain ⟨s, ts, hs, hact, hstep⟩ := hexec.step_from n
  have hsn : FifoInv s := hs ▸ { hexec.fifoInv h0 n with }
  have hwork : passWork s = passWork (run n) := by rw [hs]; rfl
  rw [hact, ← hwork]
  exact passWork_step hstep hsn (by rwa [hs]) (hact ▸ hcalm n) (by rwa [hs])

/-- 44_drain_and_boundary.md R201 over time. -/
theorem IsExecution.pass_ends (hfair : PassFair run act) {n : Nat} (hw : ∀ m, n ≤ m → (run m).wrIdx = (run n).wrIdx) :
    ∃ m, n ≤ m ∧ (run m).pass = .idle := by
  by_contra hnever
  have hp : ∀ m, n ≤ m → (run m).pass ≠ .idle := fun m hm h => hnever ⟨m, hm, h⟩
  have hstep := fun m (hm : n ≤ m) =>
    hexec.passWork_succ hcalm h0 (hp m hm) ((hw (m + 1) (by omega)).trans (hw m hm).symm)
  have hfall : ∀ m, n ≤ m → act m = .passStep → passWork (run (m + 1)) < passWork (run m) := fun m hm ha =>
    ((hstep m hm).1 ha).resolve_left (hp (m + 1) (by omega))
  refine not_falls_for_ever (f := fun m => passWork (run m)) (n := n) (fun m hm => ?_) fun m hm => ?_
  · by_cases ha : act m = .passStep
    · exact (hfall m hm ha).le
    · exact (hstep m hm).2 ha
  · obtain ⟨k, hk, ha⟩ := hfair m fun j hj => hp j (hm.trans hj)
    exact ⟨k, hk, hfall k (hm.trans hk) ha⟩

end

/-- Settles O60: the ground lemma of each view with its fairness, the EXACT invariant, and the work left in a pass. -/
theorem fairExecutionsSeeEveryIndexAndEndPasses : Obligations.FairExecutionsSeeEveryIndexAndEndPasses := by
  intro run act hexec h0 hcalm
  refine ⟨fun _ hfair n => ?_, fun hm n => ?_, fun hfair n hw => hexec.pass_ends hcalm h0 hfair hw⟩
  · rw [hexec.cfg hcalm n]
    exact ⟨hexec.exists_wrView_advance hcalm h0 hfair n, hexec.exists_rdView_advance hcalm h0 hfair n⟩
  · exact (hexec.fifoInv h0 n).exactViews (by rwa [hexec.cfg hcalm n])

end Sys2Proof.Machine
end

section
/-! The framer over the effects of operations: what each agent writes, what is reported, the error conditions of one
operation, and whole messages and streams of messages. -/

namespace Sys2Proof.Machine

/-! ### The byte of an operation -/

/-- The byte that an operation hands to the framer: the operand of DECODE, or the byte of a byte row. -/
def framerByte : Instr → Option Byte
  | .decode b => some b
  | i => encodeByte i

theorem statusByte_fields {b : Byte} (h : isStatus b = true) : statusByte (classIndex b) (channelOf b) = b := by
  revert b
  decide

theorem encodeByte_statusRow (k : BitVec 3) (c : Chan) : encodeByte (statusRow k c) = some (statusByte k c) := by
  revert k c
  decide

/-- Every byte is the encoding of the row it selects (30_encoding.md R98). -/
theorem encodeByte_of_decodeByte (b : Byte) : encodeByte (decodeByte b) = some b := by
  unfold decodeByte
  split
  · rw [encodeByte_statusRow, statusByte_fields ‹_›]
  · rw [encodeByte, dataByte_payloadOf (Bool.eq_false_iff.2 ‹_›)]

theorem framerByte_of_ne_decode {i : Instr} (h : ∀ b, i ≠ .decode b) : framerByte i = encodeByte i := by
  unfold framerByte
  split
  · exact absurd rfl (h _)
  · rfl

theorem framerByte_eq_some_iff (i : Instr) (b : Byte) : framerByte i = some b ↔ i = .decode b ∨ i = decodeByte b := by
  constructor
  · intro h
    by_cases hd : ∃ b', i = .decode b'
    · obtain ⟨b', rfl⟩ := hd
      exact .inl (congrArg _ (Option.some.inj h))
    · rw [framerByte_of_ne_decode fun b' hb' => hd ⟨b', hb'⟩] at h
      exact .inr (encodeByte_decodeByte h).symm
  · rintro (rfl | rfl)
    · rfl
    · rw [framerByte_of_ne_decode, encodeByte_of_decodeByte]
      intro b' hb'
      have := encodeByte_of_decodeByte b
      rw [hb'] at this
      cases this

/-! ### What the agents write (10_state.md R39) -/

section

variable {i : Instr} {s t : State} (h : Effect i s t) (hr : i ≠ .reset)

include h hr

theorem Effect.producer_elements (ha : i.agent ≠ .producer) :
    t.mem = s.mem ∧ t.wrIdx = s.wrIdx ∧ t.dropCount = s.dropCount := by
  cases h with
  | drop => exact absurd rfl ha
  | push => exact absurd rfl ha
  | reset => exact absurd rfl hr
  | _ => exact ⟨rfl, rfl, rfl⟩

theorem Effect.consumer_elements (ha : i.agent ≠ .consumer) :
    t.rdIdx = s.rdIdx ∧ FramerSame s t ∧ t.pass = s.pass ∧ t.events = s.events := by
  cases h with
  | pop => exact absurd rfl ha
  | passPop => exact absurd rfl ha
  | status hb => exact absurd (byteOperation_agent hb) ha
  | accept hb => exact absurd (byteOperation_agent hb) ha
  | reset => exact absurd rfl hr
  | _ => exact ⟨rfl, ⟨rfl, rfl, rfl, rfl, rfl⟩, rfl, List.append_nil _⟩

/-- In LAGGED mode only SYNC writes the views. -/
theorem Effect.views_of_lagged (ha : i.agent ≠ .sync) (hm : s.cfg.syncMode = .lagged) :
    t.wrView = s.wrView ∧ t.rdView = s.rdView := by
  have hx : s.cfg.syncMode ≠ .exact := by simp [hm]
  cases h with
  | push => exact ⟨if_neg hx, rfl⟩
  | pop => exact ⟨rfl, if_neg hx⟩
  | passPop => exact ⟨rfl, if_neg hx⟩
  | syncW => exact absurd rfl ha
  | syncR => exact absurd rfl ha
  | reset => exact absurd rfl hr
  | _ => exact ⟨rfl, rfl⟩

theorem Effect.wrView_writer (hs : i.agent ≠ .sync) (hp : i.agent ≠ .producer) : t.wrView = s.wrView := by
  cases h with
  | push => exact absurd rfl hp
  | syncW => exact absurd rfl hs
  | reset => exact absurd rfl hr
  | _ => rfl

theorem Effect.rdView_writer (hs : i.agent ≠ .sync) (hc : i.agent ≠ .consumer) : t.rdView = s.rdView := by
  cases h with
  | pop => exact absurd rfl hc
  | passPop => exact absurd rfl hc
  | syncR => exact absurd rfl hs
  | reset => exact absurd rfl hr
  | _ => rfl

theorem Effect.epoch : t.epoch = s.epoch := by
  cases h with
  | reset => exact absurd rfl hr
  | _ => rfl

/-- Only a byte handed to the framer reports an event, and what is reported is what the record grows by. -/
theorem Effect.events :
    t.events = s.events ++ t.out.evt.toList ∧ (framerByte i = none → t.out.evt = none) := by
  have row : ∀ {b : Byte}, i = .decode b ∨ i = decodeByte b → framerByte i ≠ none := fun hb hn => by
    rw [(framerByte_eq_some_iff i _).2 hb] at hn
    cases hn
  cases h with
  | reset => exact absurd rfl hr
  | status hb => exact ⟨rfl, fun hn => absurd hn (row hb)⟩
  | accept hb => exact ⟨rfl, fun hn => absurd hn (row hb)⟩
  | _ => exact ⟨rfl, fun _ => rfl⟩

/-- A status byte sets `cur` to a class, and nothing but RESET sets it to Unset. -/
theorem Effect.cur_ne_unset (hc : s.cur ≠ .unset) : t.cur ≠ .unset := by
  cases h with
  | status => exact classOfIndex_ne_unset _
  | reset => exact absurd rfl hr
  | _ => exact hc

end

/-- Settles O55: one frame for each writer. -/
theorem eachElementHasOneWriter : Obligations.EachElementHasOneWriter := fun _ _ _ hr hx =>
  have he := exec_effect hx
  ⟨he.producer_elements hr, he.consumer_elements hr, he.views_of_lagged hr, he.wrView_writer hr, he.rdView_writer hr,
    he.cfg, he.turns, he.epoch hr⟩

/-- Settles O50: an operation that is neither DECODE nor a byte row hands the framer no byte. -/
theorem atMostOneEventPerOperation : Obligations.AtMostOneEventPerOperation := by
  intro i s t hr hx
  obtain ⟨hgrows, hquiet⟩ := (exec_effect hx).events hr
  exact ⟨hgrows, fun hdecode hrow => hquiet ((framerByte_of_ne_decode hdecode).trans hrow)⟩

/-- Settles O33: the effects that write `cur`. -/
theorem onlyResetReturnsToUnset : Obligations.OnlyResetReturnsToUnset := fun _ _ _ hr hc hx =>
  (exec_effect hx).cur_ne_unset hr hc

/-! ### The error conditions of one operation (60_exceptions.md R229) -/

/-- The conditions of an operation are those of the byte it hands to the framer, or OVF. -/
theorem errorConditions_of_framerByte {i : Instr} {b : Byte} (h : framerByte i = some b) (s : State) :
    errorConditions i s = byteConditions b s := by
  cases i <;> simp only [framerByte, encodeByte, Option.some.injEq, reduceCtorEq] at h <;> subst h <;>
    simp [errorConditions, byteConditions]

theorem errorConditions_of_no_framerByte {i : Instr} (h : framerByte i = none) (s : State) :
    errorConditions i s = if (∃ b, i = .enq b) ∧ fullP s = true then [.ovf] else [] := by
  cases i <;> simp_all [framerByte, encodeByte, errorConditions]

theorem isFixed_eq_true_iff (k : MsgClass) : MsgClass.isFixed k = true ↔ k ≠ .unset ∧ k ≠ .extended := by
  cases k <;> decide

theorem mem_statusConditions_iff (x : ErrorCondition) (s : State) :
    x ∈ statusConditions s ↔ x = .abandon ∧ s.cur ≠ .unset ∧ s.cur ≠ .extended ∧ 0 < s.rem := by
  unfold statusConditions
  split <;> rename_i hc <;> rw [isFixed_eq_true_iff, and_assoc] at hc <;> simp [hc]

/-- STRAY and XCAP exclude each other by the class. -/
theorem dataConditions_eq (s : State) :
    dataConditions s = if s.rem = 0 then (if s.cur = .extended then [.xcap] else [.stray]) else [] := by
  by_cases hr : s.rem = 0
  · by_cases hc : s.cur = .extended
    · rw [dataConditions_of_full hr hc, if_pos hr, if_pos hc]
    · rw [dataConditions_of_stray hr hc, if_pos hr, if_neg hc]
  · simp [dataConditions, idle, hr]

theorem mem_dataConditions_iff (x : ErrorCondition) (s : State) :
    x ∈ dataConditions s ↔
      (x = .stray ∧ s.rem = 0 ∧ s.cur ≠ .extended) ∨ (x = .xcap ∧ s.rem = 0 ∧ s.cur = .extended) := by
  rw [dataConditions_eq]
  split
  · split <;> simp [*]
  · simp [*]

theorem length_byteConditions_le (b : Byte) (s : State) : (byteConditions b s).length ≤ 1 := by
  unfold byteConditions
  split
  · unfold statusConditions
    split <;> decide
  · rw [dataConditions_eq]
    split
    · split <;> decide
    · decide

/-- Settles O56: an operation hands the framer a status byte, a data byte or none, and each kind has its own
conditions. -/
theorem atMostOneErrorCondition : Obligations.AtMostOneErrorCondition := by
  intro i s
  simp only [← framerByte_eq_some_iff]
  cases hb : framerByte i with
  | some b =>
    have henq : ¬ ∃ b, i = .enq b := by
      rintro ⟨b', rfl⟩
      cases hb
    rw [errorConditions_of_framerByte hb]
    refine ⟨length_byteConditions_le b s, ?_⟩
    cases hs : isStatus b <;>
      simp [byteConditions, hs, henq, mem_statusConditions_iff, mem_dataConditions_iff]
  | none =>
    rw [errorConditions_of_no_framerByte hb]
    split <;> rename_i hc <;> simp [hc]

/-! ### One byte -/

/-- Settles O31: classify overwrites the four elements with values of the byte. -/
theorem statusByteResynchronises : Obligations.StatusByteResynchronises := by
  intro b s s' t t' hb hcfg ht ht'
  have hstatus : ∀ {u v}, decodeStep b u = .next v → v = afterStatus u (classOfIndex (classIndex b)) (channelOf b)
      (required u.cfg (classOfIndex (classIndex b))) (endedExtended u) := fun h =>
    ((statusStep_cases (decodeStep_status hb ▸ h)).2)
  rw [hstatus ht, hstatus ht']
  exact ⟨rfl, rfl, congrArg (required · _) hcfg, rfl⟩

/-- Settles O39: with `rem` at 0 the byte is discarded, and otherwise it is stored at `widx`, which is inside the
buffer. -/
theorem dataByteWritesOneCellOnly : Obligations.DataByteWritesOneCellOnly := by
  intro d s h
  by_cases hr : s.rem = 0
  · exact ⟨_, dataStep_discards hr, fifoSame_finish _ _ _, driverSame_finish _ _ _, rfl, rfl, fun _ => rfl,
      fun _ _ => rfl, fun _ _ => rfl, fun hpos => absurd hr hpos.ne'⟩
  · exact ⟨_, h.dataStep_eq hr _, fifoSame_acceptData _ _ _ _, driverSame_acceptData _ _ _ _, rfl, rfl, fun _ => rfl,
      fun _ ha => Memory.read_write_other _ _ ha, fun h0 => absurd h0 hr,
      fun _ => ⟨Memory.read_write_same _ _ _, (h.room hr).2⟩⟩

/-- An Extended message is not completed by counting (42_framer_data.md R164). -/
theorem completionEvent_of_extended {s : State} (h : s.cur = .extended) : completionEvent s = none :=
  if_neg fun ⟨_, hc⟩ => hc h

theorem exec_data_extended {s : State} (h : FramerInv s) (hext : s.cur = .extended) (hr : s.rem ≠ 0) (d : Payload) :
    exec (.data d) s = .next ((s.acceptData (dataByte d)).finish .none none) := by
  rw [← completionEvent_of_extended (s := s.acceptData (dataByte d)) hext]
  exact h.dataStep_eq hr _

/-- Settles O38: the byte is accepted without an event. -/
theorem extendedDataAccumulates : Obligations.ExtendedDataAccumulates := by
  intro d s h hext hr
  refine ⟨(h.room hr.ne').2, ?_⟩
  rw [exec_data_extended h hext hr.ne', finish_none, dataByte_eq_setWidth]
  rfl

/-! ### Pitch bend -/

theorem bendSigned_dataByte (lsb msb : Payload) :
    bendSigned (dataByte lsb) (dataByte msb) = ((msb.toNat * 128 + lsb.toNat : Nat) - 8192 : Int) := by
  rw [bendSigned, bendValue_eq (isStatus_dataByte lsb), dataByte_toNat, dataByte_toNat]

theorem dispatchEvent_pitchBend {s : State} {c : Chan} {d0 d1 : Payload} (hk : s.cur = .pitchBend) (hc : s.chan = c)
    (h0 : payByte s 0 = dataByte d0) (h1 : payByte s 1 = dataByte d1) :
    dispatchEvent s = some (.pitchBend c ((d1.toNat * 128 + d0.toNat : Nat) - 8192 : Int)) := by
  simp only [dispatchEvent, hk, pitchBendEvent, hc, h0, h1, bendSigned_dataByte]

/-- Settles O46: PitchBend is class 6, and its two groups of seven bits make a value of fourteen. -/
theorem pitchBendMessageReportsSignedValue : Obligations.PitchBendMessageReportsSignedValue := fun _ lsb msb _ h =>
  ⟨twoDataByteMessage_of_dispatch (k := 6) h rfl (by decide) fun _ hk hc h0 h1 => dispatchEvent_pitchBend hk hc h0 h1,
    by have := lsb.isLt; have := msb.isLt; omega, by have := lsb.isLt; have := msb.isLt; omega⟩

theorem toNat_append_payload (msb lsb : Payload) : (msb ++ lsb).toNat = msb.toNat * 128 + lsb.toNat := by
  rw [BitVec.toNat_append, ← Nat.shiftLeft_add_eq_or_of_lt lsb.isLt, Nat.shiftLeft_eq]

/-- Bit 13 of the value is bit 6 of its high group. -/
theorem append_xor_bit13 (msb lsb : Payload) : (msb ++ lsb) ^^^ 0x2000#14 = (msb ^^^ 0x40#7) ++ lsb := by
  rw [show 0x2000#14 = 0x40#7 ++ 0#7 from rfl, BitVec.xor_append, BitVec.xor_zero]

theorem toNat_xor_bit6 (d : Payload) : (d ^^^ 0x40#7).toNat = (d.toNat + 64) % 128 := by
  revert d
  decide

/-- Settles O47: subtracting 0x2000 modulo 2^14 flips bit 13. -/
theorem pitchBendPortFlipsBit13 : Obligations.PitchBendPortFlipsBit13 := by
  intro c lsb msb
  show some (BitVec.ofInt 14 (bendSigned (dataByte lsb) (dataByte msb))) = _
  rw [bendSigned_dataByte, append_xor_bit13]
  have := lsb.isLt
  have := msb.isLt
  refine congrArg some (BitVec.eq_of_toNat_eq ?_)
  rw [BitVec.toNat_ofInt, toNat_append_payload, toNat_xor_bit6]
  omega

end Sys2Proof.Machine
end

section
/-! Runs of bytes through the framer: the captured bytes of an Extended message (42_framer_data.md R164, R165), streams
of whole messages (30_encoding.md R107, 43_dispatch.md R189), and the uninterrupted drain pass
(44_drain_and_boundary.md R200, R201). -/

namespace Sys2Proof.Machine

/-! ### The framer invariant over runs of operations -/

theorem FramerInv.exec {i : Instr} {s t : State} (h : FramerInv s) (hx : exec i s = .next t) : FramerInv t :=
  h.of_effect (exec_effect hx)

theorem FramerInv.performAll {is : List Instr} {s t : State} (h : FramerInv s) (hx : performAll is s = .next t) :
    FramerInv t := by
  induction is generalizing s with
  | nil => exact Host.Outcome.next.inj hx ▸ h
  | cons i is ih =>
    rw [Machine.performAll] at hx
    split at hx
    · exact ih (h.exec ‹_›) hx
    · cases hx
    · cases hx

/-! ### The bytes of an Extended message -/

/-- `t` is `s`, in an Extended message, after the data bytes `ds`: as many of them as there was room for are captured.
-/
structure Captured (s t : State) (ds : List Payload) : Prop where
  inv : FramerInv t
  fifo : FifoSame s t
  events : t.events = s.events
  cur : t.cur = .extended
  chan : t.chan = s.chan
  widx : t.widx = min (s.widx + ds.length) s.cfg.p
  bytes : payBytes t t.widx = payBytes s s.widx ++ (ds.take (s.cfg.p - s.widx)).map dataByte

theorem payBytes_acceptData (s : State) (b : Byte) :
    payBytes (s.acceptData b) (s.widx + 1) = payBytes s s.widx ++ [b] := by
  unfold payBytes
  rw [List.range_succ, List.map_append]
  congr 1
  · refine List.map_congr_left fun j hj => ?_
    rw [payByte_acceptData, if_neg (List.mem_range.1 hj).ne]
  · simp [payByte_acceptData]

/-- Data bytes of an Extended message are captured up to `P` and then discarded. -/
theorem performAll_data_extended {s : State} {ds : List Payload} (h : FramerInv s) (hext : s.cur = .extended) :
    ∃ t, performAll (ds.map Instr.data) s = .next t ∧ Captured s t ds := by
  induction ds generalizing s with
  | nil => exact ⟨s, rfl, h, .refl s, rfl, hext, rfl, (min_eq_left h.widxFits).symm, by simp⟩
  | cons d ds ih =>
    have hroom := h.rem_add_widx_of_extended hext
    by_cases hr : s.rem = 0
    · have hx : exec (.data d) s = .next (s.finish .none none) := dataStep_discards hr
      obtain ⟨t, ht, hc⟩ := ih (h.finish .none none) hext
      refine ⟨t, (performAll_cons hx).trans ht, hc.inv, (fifoSame_finish _ _ _).trans hc.fifo, ?_,
        hc.cur, hc.chan, ?_, ?_⟩
      · rw [hc.events, State.finish_events, Option.toList_none, List.append_nil]
      · rw [hc.widx, State.finish_widx, State.finish_cfg, List.length_cons]
        omega
      · rw [hc.bytes, State.finish_widx, State.finish_cfg, show s.cfg.p - s.widx = 0 by omega]
        rfl
    · obtain ⟨t, ht, hc⟩ := ih ((h.acceptData hr (dataByte d)).finish .none none) hext
      refine ⟨t, (performAll_cons (exec_data_extended h hext hr d)).trans ht, hc.inv,
        (fifoSame_acceptData _ _ _ _).trans hc.fifo, ?_, hc.cur, hc.chan, ?_, ?_⟩
      · rw [hc.events, State.finish_events, Option.toList_none, List.append_nil, State.acceptData_events]
      · rw [hc.widx, State.finish_widx, State.finish_cfg, State.acceptData_widx, State.acceptData_cfg, List.length_cons]
        omega
      · calc payBytes t t.widx
            = payBytes (s.acceptData (dataByte d)) (s.widx + 1) ++
                (ds.take (s.cfg.p - (s.widx + 1))).map dataByte := hc.bytes
          _ = payBytes s s.widx ++ ((d :: ds).take (s.cfg.p - (s.widx + 1) + 1)).map dataByte := by
            rw [payBytes_acceptData, List.append_assoc, List.take_succ_cons]
            rfl
          _ = payBytes s s.widx ++ ((d :: ds).take (s.cfg.p - s.widx)).map dataByte := by
            rw [show s.cfg.p - (s.widx + 1) + 1 = s.cfg.p - s.widx by omega]

/-- A whole Extended message: the status byte ends the message before it, and its data bytes are captured from the
start of the buffer. -/
theorem performAll_extended {s : State} (h : FramerInv s) (c : Chan) (ds : List Payload) :
    ∃ t, performAll (.stExtended c :: ds.map Instr.data) s = .next t ∧ FramerInv t ∧ FifoSame s t ∧
      t.events = s.events ++ (endedExtended s).toList ∧ t.cur = .extended ∧ t.chan = c ∧
      t.widx = min ds.length s.cfg.p ∧ payBytes t t.widx = (ds.take s.cfg.p).map dataByte := by
  have hx : exec (.stExtended c) s = .next (afterStatus s .extended c s.cfg.p (endedExtended s)) :=
    h.statusStep_eq .extended c
  obtain ⟨t, ht, hc⟩ := performAll_data_extended (ds := ds) (h.exec hx) rfl
  refine ⟨t, (performAll_cons hx).trans ht, hc.inv, (fifoSame_afterStatus _ _ _ _ _).trans hc.fifo, hc.events, hc.cur,
    hc.chan, ?_, hc.bytes⟩
  rw [hc.widx, afterStatus_widx, afterStatus_cfg, Nat.zero_add]

/-- The SysEx of an Extended message that is in progress, with its captured bytes. -/
theorem endedExtended_eq_payBytes {s : State} (h : s.cur = .extended) :
    endedExtended s = some (.sysEx s.widx (payBytes s s.widx)) := endedExtended_of_eq h

/-- Settles O49: the next status byte reports what the data bytes left captured. -/
theorem extendedMessageReportsItsFirstBytes : Obligations.ExtendedMessageReportsItsFirstBytes := by
  intro c ds b s h hb
  obtain ⟨t, ht, hinv, hfifo, hevents, hcur, hchan, hwidx, hbytes⟩ := performAll_extended h c ds
  have hrem := hinv.rem_add_widx_of_extended hcur
  rw [hfifo.cfg] at hrem
  refine ⟨t, _, ht, hevents, hcur, hchan, hwidx, by omega, exec_decode_status hb fun _ => hinv.widxFits, ?_, rfl,
    hfifo.trans (fifoSame_afterStatus _ _ _ _ _)⟩
  rw [afterStatus_out, endedExtended_eq_payBytes hcur, hbytes, hwidx]
  exact congrArg (fun bytes => some (Event.sysEx _ bytes)) (List.map_congr_left fun d _ => dataByte_eq_setWidth d)

/-! ### Streams of whole messages -/

/-- What has been reported once the message in progress, if it is an Extended one, is ended by a status byte. -/
def reported (s : State) : List Event := s.events ++ (endedExtended s).toList

/-- Decoding the bytes from `s` completes, leaves the FIFO, and adds `es` to what is reported. -/
def Reports (s : State) (bs : List Byte) (es : List Event) : Prop :=
  ∃ t, performAll (bs.map Instr.decode) s = .next t ∧ FramerInv t ∧ FifoSame s t ∧ reported t = reported s ++ es

theorem exec_decode_statusByte (k : BitVec 3) (c : Chan) (s : State) :
    exec (.decode (statusByte k c)) s = exec (statusRow k c) s := by
  rw [← decodeByte_statusByte, exec_decodeByte]
  rfl

/-- A message of a fixed-length class leaves no Extended message in progress. -/
theorem reported_of_ne_extended {s : State} (h : s.cur ≠ .extended) : reported s = s.events := by
  rw [reported, endedExtended_of_ne h, Option.toList_none, List.append_nil]

theorem reports_of_twoDataByteMessage {k : BitVec 3} {cl : MsgClass} {base : Byte} {c : Chan} {d0 d1 : Payload}
    {e : Option Event} {s : State} (h : FramerInv s) (hcl : cl ≠ .extended)
    (hm : TwoDataByteMessage (statusRow k c) cl base c d0 d1 e s) :
    Reports s [statusByte k c, dataByte d0, dataByte d1] e.toList := by
  obtain ⟨-, hx, t, u, h0, h1, -, -, -, hevents, hcur, -, -, -, -, -, -, hfifo, -⟩ := hm
  have hrun : performAll ([statusByte k c, dataByte d0, dataByte d1].map Instr.decode) s = .next u :=
    (performAll_cons ((exec_decode_statusByte k c s).trans hx)).trans <|
      (performAll_cons ((exec_decode_dataByte _ _).trans h0)).trans <|
        performAll_cons ((exec_decode_dataByte _ _).trans h1)
  refine ⟨u, hrun, h.performAll hrun, hfifo, ?_⟩
  rw [reported_of_ne_extended (hcur ▸ hcl), hevents, reported]

theorem reports_of_oneDataByteMessage {k : BitVec 3} {cl : MsgClass} {base : Byte} {c : Chan} {d0 : Payload}
    {e : Option Event} {s : State} (h : FramerInv s) (hcl : cl ≠ .extended)
    (hm : OneDataByteMessage (statusRow k c) cl base c d0 e s) :
    Reports s [statusByte k c, dataByte d0] e.toList := by
  obtain ⟨-, hx, u, h0, -, hevents, hcur, -, -, -, -, -, hfifo, -⟩ := hm
  have hrun : performAll ([statusByte k c, dataByte d0].map Instr.decode) s = .next u :=
    (performAll_cons ((exec_decode_statusByte k c s).trans hx)).trans <|
      performAll_cons ((exec_decode_dataByte _ _).trans h0)
  refine ⟨u, hrun, h.performAll hrun, hfifo, ?_⟩
  rw [reported_of_ne_extended (hcur ▸ hcl), hevents, reported]

theorem reports_extended {s : State} (h : FramerInv s) (c : Chan) (ds : List Payload) :
    Reports s (statusByte 7 c :: ds.map dataByte)
      [.sysEx (min ds.length s.cfg.p) ((ds.take s.cfg.p).map dataByte)] := by
  obtain ⟨t, ht, hinv, hfifo, hevents, hcur, -, hwidx, hbytes⟩ := performAll_extended h c ds
  have hrows : (statusByte 7 c :: ds.map dataByte).map decodeByte = .stExtended c :: ds.map Instr.data := by
    rw [List.map_cons, decodeByte_statusByte, List.map_map]
    exact congrArg _ (List.map_congr_left fun d _ => decodeByte_dataByte d)
  refine ⟨t, by rw [performAll_decode, hrows, ht], hinv, hfifo, ?_⟩
  rw [reported, hevents, endedExtended_eq_payBytes hcur, hbytes, hwidx, reported]
  rfl

/-- The two payload bytes that stand for a pitch bend are the groups of its 14-bit value (30_encoding.md R107). -/
theorem bend_of_bendWord {c : Chan} {bend : Int} (h : (Message.pitchBend c bend).wellFormed = true) :
    (((BitVec.ofNat 7 (bendWord bend / 128)).toNat * 128 + (BitVec.ofNat 7 (bendWord bend)).toNat : Nat) - 8192 : Int) =
      bend := by
  obtain ⟨hlow, hhigh⟩ : -8192 ≤ bend ∧ bend ≤ 8191 := by simpa [Message.wellFormed] using h
  rw [BitVec.toNat_ofNat, BitVec.toNat_ofNat, bendWord]
  omega

/-- Each well-formed message reports its event (43_dispatch.md R181 to R188). -/
theorem reports_message {s : State} (h : FramerInv s) {m : Message} (hm : m.wellFormed = true) :
    Reports s m.bytes (messageEvent s.cfg m).toList := by
  cases m with
  | noteOff c note vel =>
    exact reports_of_twoDataByteMessage (k := 0) h (by decide) (noteOffMessageReportsNoteOff c note vel s h)
  | noteOn c note vel =>
    exact reports_of_twoDataByteMessage (k := 1) h (by decide) (noteOnMessageReportsNoteOnOrNoteOff c note vel s h)
  | polyPressure c note val =>
    exact reports_of_twoDataByteMessage (k := 2) h (by decide) (polyPressureMessageReportsNothing c note val s h)
  | controlChange c ctl val =>
    exact reports_of_twoDataByteMessage (k := 3) h (by decide) (controlChangeMessageReportsControlChange c ctl val s h)
  | programChange c prog =>
    exact reports_of_oneDataByteMessage (k := 4) h (by decide) (programChangeMessageReportsProgramChange c prog s h)
  | channelPressure c val =>
    exact reports_of_oneDataByteMessage (k := 5) h (by decide) (channelPressureMessageReportsNothing c val s h)
  | pitchBend c bend =>
    have hmessage := pitchBendMessageReportsSignedValue c (BitVec.ofNat 7 (bendWord bend))
      (BitVec.ofNat 7 (bendWord bend / 128)) s h
    rw [bend_of_bendWord hm] at hmessage
    exact reports_of_twoDataByteMessage (k := 6) h (by decide) hmessage.1
  | extended c ds => exact reports_extended h c ds

theorem Reports.append {s : State} {xs ys : List Byte} {es fs : List Event} (hx : Reports s xs es)
    (hy : ∀ t, FramerInv t → t.cfg = s.cfg → Reports t ys fs) : Reports s (xs ++ ys) (es ++ fs) := by
  obtain ⟨t, ht, hinv, hfifo, hes⟩ := hx
  obtain ⟨u, hu, huinv, hufifo, hfs⟩ := hy t hinv hfifo.cfg
  refine ⟨u, ?_, huinv, hfifo.trans hufifo, by rw [hfs, hes, List.append_assoc]⟩
  rw [List.map_append, performAll_append ht, hu]

theorem reports_messages {s : State} (h : FramerInv s) {ms : List Message} (hms : ∀ m ∈ ms, m.wellFormed = true) :
    Reports s (ms.flatMap Message.bytes) (ms.flatMap fun m => (messageEvent s.cfg m).toList) := by
  induction ms generalizing s with
  | nil => exact ⟨s, rfl, h, .refl s, (List.append_nil _).symm⟩
  | cons m ms ih =>
    obtain ⟨hm, hms⟩ := List.forall_mem_cons.1 hms
    refine (reports_message h hm).append fun t ht hcfg => ?_
    rw [← hcfg]
    exact ih ht hms

/-- Settles O51: each message adds its event to what is reported, and the last status byte ends an Extended one. -/
theorem messageStreamReportsEachMessageOnce : Obligations.MessageStreamReportsEachMessageOnce := by
  intro ms b s h hms hb
  obtain ⟨t, ht, hinv, hfifo, hreported⟩ := reports_messages h hms
  have hlast := exec_decode_status hb fun _ => hinv.widxFits
  exact ⟨_, (congrArg (performAll · s) List.map_append).trans ((performAll_append ht).trans (performAll_cons hlast)),
    hfifo.trans (fifoSame_afterStatus _ _ _ _ _), hreported⟩

end Sys2Proof.Machine
end

section
/-! The drain pass (44_drain_and_boundary.md R200, R201), and what a step makes of each kind of turn (30_encoding.md
section 5, 60_exceptions.md R234). -/

namespace Sys2Proof.Machine

/-! ### A step, by what `fetch` answers -/

theorem step_of_perform {s u : State} {i : Instr} (h : fetch s = (.perform i, u)) : step s = exec i u := by
  rw [step, h]

theorem step_of_passStep {s u : State} (h : fetch s = (.passStep, u)) : step s = passStep u := by
  rw [step, h]

theorem step_of_refuse {s u : State} {r : Refusal} (h : fetch s = (.refuse r, u)) : step s = .refused r := by
  rw [step, h]

/-- A call that breaches no contract is performed. -/
theorem fetchCall_of_agent {i : Instr} {s : State} (h : s.pass = .idle ∨ occupiesConsumer i = false) :
    fetchCall i.agent i s = (.perform i, s) := by
  have hb : breach i.agent i s = none := by rcases h with h | h <;> simp [breach, h]
  rw [fetchCall, hb]

theorem fetchPass_of_ne_idle {s : State} (h : s.pass ≠ .idle) : fetchPass s = (.passStep, s) := if_neg h

section

variable {s : State} {ts : List Turn}

theorem fetch_nil (h : s.turns = []) : fetch s = fetchPass s := by rw [fetch, h]

theorem fetch_pass (h : s.turns = .pass :: ts) : fetch s = fetchPass { s with turns := ts } := by rw [fetch, h]

theorem fetch_byte {b : Byte} (h : s.turns = .byte b :: ts) :
    fetch s = fetchCall (decodeByte b).agent (decodeByte b) { s with turns := ts } := by
  rw [fetch, h, decodeByte_agent]

theorem fetch_call {a : Agent} {i : Instr} (h : s.turns = .call a i :: ts) :
    fetch s = fetchCall a i { s with turns := ts } := by rw [fetch, h]

theorem fetch_drainAndDispatch (h : s.turns = .drainAndDispatch :: ts) :
    fetch s = (.perform .drain, { s with turns := ts }) := by
  rw [fetch, h]
  exact fetchCall_of_agent (i := .drain) (.inr rfl)

theorem fetch_onByteReceived {b : Byte} (h : s.turns = .onByteReceived b :: ts) :
    fetch s = (.performQuietly (.enq b), { s with turns := ts }) := by rw [fetch, h]

theorem fetch_pins {p : PortIn} {f : Bool} (h : s.turns = .pins p f :: ts) :
    fetch s = fetchPins (decodePorts p f) { s with turns := ts } := by rw [fetch, h]

end

/-- The first operation that the strobes ask for is performed, and the others become the next turns (log 12). -/
theorem step_pins {s : State} {ts : List Turn} {p : PortIn} {f : Bool} {i : Instr} {is : List Instr}
    (h : s.turns = .pins p f :: ts) (hp : decodePorts p f = .ok (i :: is)) (hidle : s.pass = .idle) :
    step s = exec i { s with turns := is.map (fun j => .call j.agent j) ++ ts } := by
  apply step_of_perform
  rw [fetch_pins h, hp]
  exact fetchCall_of_agent (.inl hidle)

theorem step_pins_refused {s : State} {ts : List Turn} {p : PortIn} {f : Bool} {e : PortError}
    (h : s.turns = .pins p f :: ts) (hp : decodePorts p f = .error e) : step s = .refused (portRefusal e) := by
  apply step_of_refuse (u := { s with turns := ts })
  rw [fetch_pins h, hp]
  rfl

/-! ### The strobes of one operation -/

/-- The strobes that request an operation give that operation alone (30_encoding.md R102). -/
theorem decodePorts_encodePorts {i : Instr} {p : PortIn} (h : encodePorts i = some p) (f : Bool) :
    decodePorts p f = .ok [i] := by
  cases i <;> cases h <;> cases f <;> rfl

/-- Settles O4: for bytes, every one is its row's encoding and a row has one encoding; a stream decodes from its front;
and of the strobes exactly the requested one is raised. -/
theorem decodeAndEncodeAgree : Obligations.DecodeAndEncodeAgree := by
  refine ⟨encodeByte_of_decodeByte, fun _ _ => encodeByte_decodeByte, fun i bs rest h => ?_,
    fun _ _ f h => decodePorts_encodePorts h f⟩
  obtain ⟨b, hb, rfl⟩ := Option.map_eq_some_iff.1 h
  rw [List.singleton_append, decode, encodeByte_decodeByte hb]

/-! ### Kinds of turns -/

/-- The table's word of eight bits is a byte (30_encoding.md R105). -/
theorem decodeTableWord_eight {w : Nat} {i : Instr} (h : decodeTableWord 8 w = some i) :
    decodeByte (BitVec.ofNat 8 w) = i := by
  unfold decodeTableWord at h
  split at h
  · exact Option.some.inj h
  · cases h

/-- A byte handed to a consumer with no pass in progress. -/
theorem step_byte {s : State} {ts : List Turn} {b : Byte} (h : s.turns = .byte b :: ts) (hp : s.pass = .idle) :
    step s = exec (decodeByte b) { s with turns := ts } :=
  step_of_perform ((fetch_byte h).trans (fetchCall_of_agent (.inl hp)))

/-- Settles O57: what `fetch` answers to each kind of turn. -/
theorem stepRunsTheTurnsOperation : Obligations.StepRunsTheTurnsOperation := by
  refine fun s ts => ⟨fun b => step_byte, fun i h hp => ?_, fun h => ?_, fun b h => ?_, fun i p f he h hp => ?_,
    fun w i hw => ?_, fun h hp => ?_⟩
  · exact step_of_perform ((fetch_call h).trans (fetchCall_of_agent hp))
  · exact step_of_perform (fetch_drainAndDispatch h)
  · obtain ⟨t, ht, -⟩ := exec_enq_completes b { s with turns := ts }
    refine ⟨t, ht, ?_⟩
    rw [step, fetch_onByteReceived h]
    dsimp only
    rw [ht]
    rfl
  · exact step_pins h (decodePorts_encodePorts he f) hp
  · rw [← decodeTableWord_eight hw]
    exact step_byte rfl rfl
  · rw [step, fetch_nil h, fetchPass, if_pos hp]
    exact congrArg _ (finish_none_none s)

/-- Settles O58: the list of requests, in the order of the turn. -/
theorem strobesRaisedTogetherAreTwoSteps : Obligations.StrobesRaisedTogetherAreTwoSteps := fun _ _ _ hp =>
  ⟨fun h => step_pins h rfl hp, fun h => step_pins h rfl hp⟩

/-! ### Breaches of contract -/

theorem decodePorts_reset_not_alone {p : PortIn} (f : Bool) (hr : p.rst = true)
    (h : p.enqValid = true ∨ p.deqReq = true ∨ p.decValid = true ∨ p.drainReq = true) :
    decodePorts p f = .error .resetNotAlone := by
  have hrequest : ¬ (p.producerRequests = [] ∧ p.consumerRequests = []) := by
    rcases h with h | h | h | h <;> simp [PortIn.producerRequests, PortIn.consumerRequests, h]
  rw [decodePorts, if_pos hr, if_neg hrequest]

theorem decodePorts_two_consumer_requests {p : PortIn} (f : Bool) (hr : p.rst = false)
    (h : (p.deqReq = true ∧ p.decValid = true) ∨ (p.deqReq = true ∧ p.drainReq = true) ∨
      (p.decValid = true ∧ p.drainReq = true)) :
    decodePorts p f = .error .twoConsumerRequests := by
  have htwo : 1 < p.consumerRequests.length := by
    rcases h with ⟨h, h'⟩ | ⟨h, h'⟩ | ⟨h, h'⟩ <;> simp [PortIn.consumerRequests, h, h']
  rw [decodePorts, if_neg (by simp [hr]), if_pos htwo]

/-- Settles O59: each breach is caught by `breach`, by DRAIN itself or by the decoder of the strobes. -/
theorem breachesOfContractAreRefused : Obligations.BreachesOfContractAreRefused := by
  refine fun s ts => ⟨fun a i h ha => ?_, fun i h hp ho => ?_, fun h hp => ?_, fun p f h hr hs => ?_,
    fun p f h hr hs => ?_⟩
  · refine step_of_refuse (u := { s with turns := ts }) ?_
    rw [fetch_call h, fetchCall, breach, if_pos ha]
  · refine step_of_refuse (u := { s with turns := ts }) ?_
    rw [fetch_call h, fetchCall, breach, if_neg (by simp), if_pos ⟨ho, hp⟩]
  · exact (step_of_perform ((fetch_call h).trans (fetchCall_of_agent (i := .drain) (.inr rfl)))).trans
      (exec_drain_refused hp)
  · exact step_pins_refused h (decodePorts_reset_not_alone f hr hs)
  · exact step_pins_refused h (decodePorts_two_consumer_requests f hr hs)

/-! ### The steps of a drain pass -/

/-- The pass in progress goes on when its turn comes. -/
theorem step_pass {s : State} {ts : List Turn} (h : s.turns = .pass :: ts) (hp : s.pass ≠ .idle) :
    step s = passStep { s with turns := ts } :=
  step_of_passStep ((fetch_pass h).trans (fetchPass_of_ne_idle hp))

/-- The pass in progress goes on by itself when no turn is left (log 8). -/
theorem step_pass_nil {s : State} (h : s.turns = []) (hp : s.pass ≠ .idle) : step s = passStep s :=
  step_of_passStep ((fetch_nil h).trans (fetchPass_of_ne_idle hp))

theorem passStep_atDeq {s : State} (h : s.pass = .atDeq) : passStep s = exec .drain { s with pass := .idle } := by
  rw [passStep, h]
  exact passDeq_eq_exec s

theorem passStep_atDecode {s : State} {b : Byte} (h : s.pass = .atDecode b) :
    passStep s = exec (.decode b) { s with pass := .atDeq } := by
  rw [passStep, h]
  exact passDecode_eq_exec b s

/-- Settles O52: DRAIN's own step, its refusal, and the pass's steps at its turn and without turns. -/
theorem drainAlternatesDeqAndDecode : Obligations.DrainAlternatesDeqAndDecode := by
  refine fun s => ⟨exec_drain_of_empty, fun hp he => ?_, exec_drain_refused, fun b h hp => ?_, fun h hp => ?_,
    fun b ts h hp => ?_, fun ts h hp => ?_⟩
  · rw [exec_drain_ok hp ((emptyC_eq_false_iff s).2 he), finish_none]
    rfl
  · exact (step_pass_nil h (by simp [hp])).trans (passStep_atDecode hp)
  · exact (step_pass_nil h (by simp [hp])).trans (passStep_atDeq hp)
  · exact (step_pass h (by simp [hp])).trans (passStep_atDecode hp)
  · exact (step_pass h (by simp [hp])).trans (passStep_atDeq hp)

/-! ### A whole pass -/

/-- The same to a decoder: the framer, the parameters, the free contents, and the events so far. -/
structure SameToDecode (s t : State) : Prop where
  framer : FramerSame s t
  cfg : t.cfg = s.cfg
  epoch : t.epoch = s.epoch
  events : t.events = s.events

theorem FramerSame.symm {s t : State} (h : FramerSame s t) : FramerSame t s :=
  ⟨h.cur.symm, h.chan.symm, h.rem.symm, h.pay.symm, h.widx.symm⟩

theorem FramerSame.trans {a b c : State} (h : FramerSame a b) (g : FramerSame b c) : FramerSame a c :=
  ⟨g.1.trans h.1, g.2.trans h.2, g.3.trans h.3, g.4.trans h.4, g.5.trans h.5⟩

theorem SameToDecode.decode {b : Byte} {s s' t : State} (h : SameToDecode s s') (ht : exec (.decode b) s = .next t) :
    ∃ t', exec (.decode b) s' = .next t' ∧ SameToDecode t t' := by
  obtain ⟨t', ht', hframer, hout⟩ := decodeStep_congr h.framer h.cfg h.epoch ht
  obtain ⟨hfifo, hdriver⟩ := decodeStep_frame ht
  obtain ⟨hfifo', hdriver'⟩ := decodeStep_frame ht'
  refine ⟨t', ht', hframer, ?_, ?_, ?_⟩
  · rw [hfifo'.cfg, hfifo.cfg, h.cfg]
  · rw [hdriver'.epoch, hdriver.epoch, h.epoch]
  · rw [(decodeStep_output ht').2, (decodeStep_output ht).2, h.events, hout]

/-- Decoding the same bytes from two states that are the same to a decoder. -/
theorem SameToDecode.performAll {bs : List Byte} {s s' t : State} (h : SameToDecode s s')
    (ht : performAll (bs.map Instr.decode) s = .next t) :
    ∃ t', performAll (bs.map Instr.decode) s' = .next t' ∧ SameToDecode t t' := by
  induction bs generalizing s s' with
  | nil =>
    obtain rfl := Host.Outcome.next.inj ht
    exact ⟨s', rfl, h⟩
  | cons b bs ih =>
    rw [List.map_cons, Machine.performAll] at ht
    split at ht
    · obtain ⟨u', hu', hsame⟩ := h.decode ‹_›
      obtain ⟨t', ht', hsame'⟩ := ih hsame ht
      exact ⟨t', (performAll_cons hu').trans ht', hsame'⟩
    · cases ht
    · cases ht

/-- DRAIN and `2 * len_c` further steps: the pass has ended, and the framer and the events are those of decoding the
visible bytes directly. -/
def DrainsVisible (s : State) : Prop :=
  ∃ s' t u, exec .drain s = .next s' ∧ Host.Core.run Sys2Proof.core (2 * lenC s) s' = .next t ∧
    performAll ((visible s).map Instr.decode) s = .next u ∧ FramerSame u t ∧ t.events = u.events ∧ t.pass = .idle ∧
    t.out.ret = .drainDone ∧ t.rdIdx = s.wrView ∧ t.mem = s.mem ∧ t.wrIdx = s.wrIdx ∧ t.wrView = s.wrView ∧
    t.dropCount = s.dropCount

/-- The visible bytes: the oldest one, then those visible after it is taken. -/
theorem visible_popByte {s : State} (h : FifoInv s) (he : emptyC s = false) :
    visible s = oldestByte s :: visible s.popByte := by
  unfold visible
  rw [← lenC_popByte h he, bytesFromRead_succ h]

/-- A step that touches no FIFO element changes nothing that is visible. -/
theorem visible_congr {s t : State} (h : FifoSame s t) (he : t.epoch = s.epoch) :
    visible t = visible s ∧ lenC t = lenC s := by
  have hlen : lenC t = lenC s := by rw [lenC, h.cfg, h.rdIdx, h.wrView, lenC]
  refine ⟨?_, hlen⟩
  unfold visible bytesFromRead memByte
  rw [hlen, h.cfg, h.rdIdx, h.mem, he]

theorem drainsVisible_of_empty {s : State} (hp : s.pass = .idle) (he : emptyC s = true) (hn : lenC s = 0) :
    DrainsVisible s := by
  have hvisible : visible s = [] := by rw [visible, hn]; rfl
  refine ⟨_, (s.setPass .idle).finish .drainDone none, s, exec_drain_empty hp he, ?_, ?_, ⟨rfl, rfl, rfl, rfl, rfl⟩,
    List.append_nil _, rfl, rfl, ((emptyC_eq_true_iff s).1 he).symm, rfl, rfl, rfl, rfl⟩
  · rw [hn]
    rfl
  · rw [hvisible]
    rfl

theorem FifoInv.congr {s t : State} (h : FifoInv s) (g : FifoSame s t) : FifoInv t := by
  obtain ⟨hwr, hrd, hwv, hrv, horder, hspan, hdrop, hexact⟩ := h
  constructor <;> simp only [g.cfg, g.wrIdx, g.rdIdx, g.wrView, g.rdView, g.dropCount] <;> assumption

/-- The state after the first step of a pass that finds a byte (44_drain_and_boundary.md R200). -/
def State.takeForPass (s : State) : State :=
  (s.popByte.setPass (.atDecode (oldestByte s))).finish (.drainByte (oldestByte s)) none

/-- A pass's first two steps take the oldest byte and decode it as a direct DECODE would. -/
theorem drain_takes_and_decodes {s : State} (h : FramerInv s) (hp : s.pass = .idle) (hts : s.turns = [])
    (he : emptyC s = false) :
    ∃ v w, exec .drain s = .next s.takeForPass ∧ step s.takeForPass = .next w ∧
      exec (.decode (oldestByte s)) s = .next v ∧ SameToDecode v w ∧ FifoSame s.popByte w ∧ FramerInv w ∧
      w.epoch = s.epoch ∧ w.pass = .atDeq ∧ w.turns = [] := by
  have hsame : SameToDecode s { s.takeForPass with pass := .atDeq } :=
    ⟨⟨rfl, rfl, rfl, rfl, rfl⟩, rfl, rfl, List.append_nil _⟩
  obtain ⟨v, hv⟩ := h.decodeStep_total (oldestByte s)
  obtain ⟨w, hw, hvw⟩ := hsame.decode hv
  obtain ⟨hfifo, hdriver⟩ := decodeStep_frame hw
  have hturns : s.takeForPass.turns = [] := hts
  have hpass : s.takeForPass.pass = .atDecode (oldestByte s) := rfl
  have hstep : step s.takeForPass = .next w :=
    (step_pass_nil hturns (by simp [hpass])).trans ((passStep_atDecode hpass).trans hw)
  have hinv : FramerInv { s.takeForPass with pass := .atDeq } := { h with }
  exact ⟨v, w, exec_drain_ok hp he, hstep, hv, hvw,
    ⟨hfifo.cfg, hfifo.mem, hfifo.wrIdx, hfifo.rdIdx, hfifo.wrView, hfifo.rdView, hfifo.dropCount⟩, hinv.exec hw,
    hdriver.epoch, hdriver.pass, hdriver.turns.trans hts⟩

/-- A pass from a FIFO that is not empty: its first byte, then a drain of the rest. -/
theorem drainsVisible_of_rest {s : State} (hf : FifoInv s) (h : FramerInv s) (hp : s.pass = .idle) (hts : s.turns = [])
    (he : emptyC s = false)
    (hrest : ∀ w : State, FifoInv w → FramerInv w → w.pass = .idle → w.turns = [] → lenC w = lenC s.popByte →
      DrainsVisible w) : DrainsVisible s := by
  obtain ⟨v, w, hdrain, hdecode, hv, hvw, hfifo, hw, hepoch, hpass, hturns⟩ := drain_takes_and_decodes h hp hts he
  obtain ⟨hvisible, hlen⟩ := visible_congr hfifo hepoch
  have hfw : FifoInv w := (hf.popByte he).congr hfifo
  obtain ⟨w', t, u, hdrain', hrun, hbytes, hframer, hevents, hidle, hret, hrd, hmem, hwr, hview, hdrop⟩ :=
    hrest { w with pass := .idle } { hfw with } { hw with } rfl hturns hlen
  have hdeq : step w = .next w' :=
    (step_pass_nil hturns (by simp [hpass])).trans ((passStep_atDeq hpass).trans hdrain')
  have hwv : SameToDecode { w with pass := .idle } v :=
    ⟨{ hvw.framer.symm with }, hvw.cfg.symm, hvw.epoch.symm, hvw.events.symm⟩
  obtain ⟨u', hu', huu'⟩ := hwv.performAll hbytes
  have hsteps : 2 * lenC s = 2 * lenC w + 1 + 1 := by
    have := lenC_popByte hf he
    omega
  refine ⟨_, t, u', hdrain, ?_, ?_, huu'.framer.symm.trans hframer, hevents.trans huu'.events.symm, hidle, hret,
    hrd.trans hfifo.wrView, hmem.trans hfifo.mem, hwr.trans hfifo.wrIdx, hview.trans hfifo.wrView,
    hdrop.trans hfifo.dropCount⟩
  · rw [hsteps, run_succ_next hdecode, run_succ_next hdeq]
    exact hrun
  · rw [visible_popByte hf he, List.map_cons, performAll_cons hv, ← hvisible]
    exact hu'

/-- A pass decodes every visible byte and ends. -/
theorem drainsVisible {n : Nat} {s : State} (hf : FifoInv s) (h : FramerInv s) (hp : s.pass = .idle)
    (hts : s.turns = []) (hn : lenC s = n) : DrainsVisible s := by
  induction n generalizing s with
  | zero => exact drainsVisible_of_empty hp ((emptyC_iff hf).2 hn) hn
  | succ n ih =>
    have he : emptyC s = false := by
      rw [← Bool.not_eq_true, emptyC_iff hf]
      omega
    have hlen := lenC_popByte hf he
    exact drainsVisible_of_rest hf h hp hts he fun w hfw hw hpw htw hlw => ih hfw hw hpw htw (by omega)

/-- Settles O53: by induction on the visible bytes. -/
theorem drainDecodesEverythingVisible : Obligations.DrainDecodesEverythingVisible := by
  intro s hf h hp hts
  obtain ⟨s', t, u, hdrain, hrun, hbytes, hrest⟩ := drainsVisible hf h hp hts rfl
  exact ⟨lenC_le_cap hf, s', t, u, hdrain, hrun, hbytes, by simp [visible, bytesFromRead], hrest⟩

end Sys2Proof.Machine
end

section
/-! Index arithmetic (00_scope.md R12), the byte map (30_encoding.md R105), the reset state (10_state.md R40 to R42),
and the two statements about one operation or port that need no invariant. -/

namespace Sys2Proof.Machine

/-! ### Index arithmetic -/

/-- The distance with the remainder of the integers, which is not negative. -/
theorem idxDist_eq_emod (c : Config) (a b : Nat) :
    (idxDist c a b : Int) = ((b : Int) - (a : Int)) % (c.modulus : Int) := by
  have hpos := modulus_pos c
  have hlt := Nat.mod_lt a hpos
  have hdiv := Nat.mod_add_div a c.modulus
  have hmul : ((b + (c.modulus - a % c.modulus) : Nat) : Int) =
      (b : Int) - a + c.modulus * (a / c.modulus + 1 : Nat) := by
    push_cast [Nat.cast_sub hlt.le]
    have : (a : Int) = a % c.modulus + c.modulus * (a / c.modulus) := by exact_mod_cast hdiv.symm
    linear_combination this
  rw [idxDist, Int.natCast_mod, hmul, Int.add_mul_emod_self_left]

/-- Settles O1: the definitions, and `idxDist` as the remainder of the integers. -/
theorem indexArithmeticIsModular : Obligations.IndexArithmeticIsModular := fun c a b =>
  ⟨rfl, rfl, idxDist_eq_emod c a b, idxDist_lt c a b, rfl⟩

/-! ### The byte map -/

theorem filter_byteMap_statusByte (k : BitVec 3) (c : Chan) :
    (byteMap.filter fun r => r.selects (statusByte k c)).map (fun r => r.mnemonic) = [(statusRow k c).mnemonic] := by
  revert k c
  decide

theorem filter_byteMap_dataByte (d : Payload) :
    (byteMap.filter fun r => r.selects (dataByte d)).map (fun r => r.mnemonic) = ["DATA"] := by
  revert d
  decide

/-- Settles O2: a byte is a status byte with its class and channel, or a data byte with its payload. -/
theorem everyByteSelectsItsOneRow : Obligations.EveryByteSelectsItsOneRow := by
  intro b
  cases hb : isStatus b with
  | true =>
    rw [← statusByte_fields hb, decodeByte_statusByte]
    exact filter_byteMap_statusByte _ _
  | false =>
    rw [← dataByte_payloadOf hb, decodeByte_dataByte]
    exact filter_byteMap_dataByte _

/-- Settles O3: the nine bytes. -/
theorem sampleBytesDecodeToTheirRows : Obligations.SampleBytesDecodeToTheirRows := by
  unfold Obligations.SampleBytesDecodeToTheirRows
  decide

/-! ### Reset -/

/-- Settles O5: with both indices at 0 both distances are 0, and the capacity is not. -/
theorem resetLeavesTheStatedValues : Obligations.ResetLeavesTheStatedValues := by
  refine ⟨rfl, fun c => ?_⟩
  have hzero : idxDist c 0 0 = 0 := idxDist_self c (modulus_pos c)
  refine ⟨rfl, rfl, rfl, rfl, rfl, rfl, rfl, rfl, rfl, rfl, rfl, hzero, rfl, ?_, rfl⟩
  exact (fullP_eq_false_iff _).2 fun hfull => (cap_pos c).ne (hzero.symm.trans hfull)

/-- Settles O6: RESET's meaning reads nothing but the parameters, the turns and the count of resets. -/
theorem resetStepRestoresTheResetState : Obligations.ResetStepRestoresTheResetState := fun s => ⟨s.epoch + 1, rfl⟩

/-! ### One operation, one port -/

/-- Settles O54: the step presents nothing, and that is all it does. -/
theorem configureLineChangesNothing : Obligations.ConfigureLineChangesNothing := fun _ s =>
  congrArg Host.Outcome.next (finish_none_none s)

/-- Settles O48: the rows of the port. -/
theorem eventPortShowsTheEvent : Obligations.EventPortShowsTheEvent := fun _ _ _ _ _ _ =>
  ⟨rfl, rfl, rfl, rfl, rfl, rfl, rfl⟩

end Sys2Proof.Machine
end
